-- ==== Sys2Proof/Word.lean ====
section
/-! DEFINITION. The word types of the CHIP-8 core (spec 00_scope.md R7, R9; 30_encoding.md R100, R102). Every value of
the instruction set is unsigned. -/

namespace Sys2Proof

/-- A byte: a general register, a timer, a memory byte, an immediate `kk` (R7, R12, R70). -/
abbrev Byte := BitVec 8

/-- A 16-bit word: an instruction word, the program counter, the index register, a stack slot (R9, R10, R100). -/
abbrev Word := BitVec 16

/-- A 12-bit address: the field `nnn`, and an address after masking (R8, R71, R102). -/
abbrev Addr := BitVec 12

/-- A 4-bit field: a sub-operation, a sprite height, an ignored nibble (R102). -/
abbrev Nibble := BitVec 4

/-- The number of a general register, 0 to 15 (R33, R105). -/
abbrev Reg := BitVec 4

end Sys2Proof
end

