-- ==== Sys2Proof/Syntax.lean ====
section
/-! DEFINITION. The instructions: one constructor per row of spec/opcode_table.json, its operand fields already
extracted (spec 30_encoding.md R102, R106, R110 to R116). A last argument `ign` keeps bits the decoder ignores (R115):
no effect depends on it, and an error report still holds the fetched word (R301; DESIGN CHOICE, log entry 8). -/

namespace Sys2Proof

inductive Instr where
  /-- `0-E0` CLS: clear the framebuffer (R231). -/
  | cls (ign : Nibble)
  /-- `0-EE` RET (R141). -/
  | ret (ign : Nibble)
  /-- `1nnn` JP addr (R142). -/
  | jp (nnn : Addr)
  /-- `2nnn` CALL addr (R143). -/
  | call (nnn : Addr)
  /-- `3xkk` SE Vx,kk (R144). -/
  | seImm (x : Reg) (kk : Byte)
  /-- `4xkk` SNE Vx,kk (R145). -/
  | sneImm (x : Reg) (kk : Byte)
  /-- `5xy-` SE Vx,Vy (R146). -/
  | seReg (x y : Reg) (ign : Nibble)
  /-- `6xkk` LD Vx,kk (R172). -/
  | ldImm (x : Reg) (kk : Byte)
  /-- `7xkk` ADD Vx,kk (R174). -/
  | addImm (x : Reg) (kk : Byte)
  /-- `9xy-` SNE Vx,Vy (R147). -/
  | sneReg (x y : Reg) (ign : Nibble)
  /-- `Annn` LD I,addr (R201). -/
  | ldI (nnn : Addr)
  /-- `Bnnn` JP V0,addr (R148). -/
  | jpV0 (nnn : Addr)
  /-- `Cxkk` RND Vx,kk (R190). -/
  | rnd (x : Reg) (kk : Byte)
  /-- `Dxyn` DRW Vx,Vy,n (R232). -/
  | drw (x y : Reg) (n : Nibble)
  /-- `8xy0` LD Vx,Vy (R176). -/
  | ldReg (x y : Reg)
  /-- `8xy1` OR Vx,Vy (R178). -/
  | orReg (x y : Reg)
  /-- `8xy2` AND Vx,Vy (R179). -/
  | andReg (x y : Reg)
  /-- `8xy3` XOR Vx,Vy (R180). -/
  | xorReg (x y : Reg)
  /-- `8xy4` ADD Vx,Vy (R182). -/
  | addReg (x y : Reg)
  /-- `8xy5` SUB Vx,Vy (R184). -/
  | sub (x y : Reg)
  /-- `8xy6` SHR Vx (R186); `y` is read only in the mode `SHIFT_USES_VY` (R14). -/
  | shr (x y : Reg)
  /-- `8xy7` SUBN Vx,Vy (R187). -/
  | subn (x y : Reg)
  /-- `8xyE` SHL Vx (R188); `y` is read only in the mode `SHIFT_USES_VY` (R14). -/
  | shl (x y : Reg)
  /-- `Ex9E` SKP Vx (R261). -/
  | skp (x : Reg)
  /-- `ExA1` SKNP Vx (R262). -/
  | sknp (x : Reg)
  /-- `Fx07` LD Vx,DT (R264). -/
  | ldVxDt (x : Reg)
  /-- `Fx0A` LD Vx,K (R266). -/
  | ldVxK (x : Reg)
  /-- `Fx15` LD DT,Vx (R272). -/
  | ldDtVx (x : Reg)
  /-- `Fx18` LD ST,Vx (R273). -/
  | ldStVx (x : Reg)
  /-- `Fx1E` ADD I,Vx (R202). -/
  | addI (x : Reg)
  /-- `Fx29` LD F,Vx (R203). -/
  | ldF (x : Reg)
  /-- `Fx33` LD B,Vx (R204). -/
  | ldB (x : Reg)
  /-- `Fx55` LD [I],Vx (R205). -/
  | storeRegs (x : Reg)
  /-- `Fx65` LD Vx,[I] (R206). -/
  | loadRegs (x : Reg)
  /-- The table's row "(unknown)": a word that matches no instruction (R106, R116, R304). -/
  | unknown (w : Word)
  deriving DecidableEq, Repr

end Sys2Proof
end

