-- ==== Sys2Proof/WellFormed.lean ====
section
/-! DEFINITION. Well-formed instructions. Every operand field has the width of its encoding, so the only check is that
an `unknown` instruction holds a word of the unknown space (spec 30_encoding.md R116). The space is written here from
R116 by masks, apart from the decoder. -/

namespace Sys2Proof

/-- The secondary keys of family 0xF (R114). -/
def familyFKeys : List Word := [0x07, 0x0A, 0x15, 0x18, 0x1E, 0x29, 0x33, 0x55, 0x65]

/-- The secondary keys of family 0x8 that no instruction has (R116). -/
def family8Holes : List Word := [0x8, 0x9, 0xA, 0xB, 0xC, 0xD, 0xF]

/-- R116: the words that match no instruction. -/
def unknownWord (w : Word) : Bool :=
  let family := w &&& 0xF000
  let byteKey := w &&& 0x00FF
  let nibbleKey := w &&& 0x000F
  (family == 0x0000 && !([0xE0, 0xEE] : List Word).contains byteKey) ||
  (family == 0x8000 && family8Holes.contains nibbleKey) ||
  (family == 0xE000 && !([0x9E, 0xA1] : List Word).contains byteKey) ||
  (family == 0xF000 && !familyFKeys.contains byteKey)

/-- The check on an instruction: `unknown` holds only a word of the unknown space. -/
def Instr.wf : Instr → Bool
  | .unknown w => unknownWord w
  | .cls _ | .ret _ | .jp _ | .call _ | .seImm _ _ | .sneImm _ _ | .seReg _ _ _ | .ldImm _ _ | .addImm _ _
  | .sneReg _ _ _ | .ldI _ | .jpV0 _ | .rnd _ _ | .drw _ _ _ | .ldReg _ _ | .orReg _ _ | .andReg _ _ | .xorReg _ _
  | .addReg _ _ | .sub _ _ | .shr _ _ | .subn _ _ | .shl _ _ | .skp _ | .sknp _ | .ldVxDt _ | .ldVxK _ | .ldDtVx _
  | .ldStVx _ | .addI _ | .ldF _ | .ldB _ | .storeRegs _ | .loadRegs _ => true

end Sys2Proof
end

