-- ==== Sys2Proof/Decode.lean ====
section
/-! DEFINITION. The decoder, total on any bytes, and the encoder, both from the encoding tables of spec 30_encoding.md
(R100 to R122). The spec supplies every bit pattern from general knowledge (UNVERIFIED, log entry 7). -/

namespace Sys2Proof

/-! ## Fields (R102) -/

/-- `op = w[15:12]`. -/
def opField (w : Word) : Nibble := w.extractLsb' 12 4

/-- `nnn = w[11:0]`. -/
def nnnField (w : Word) : Addr := w.extractLsb' 0 12

/-- `x = w[11:8]`. -/
def xField (w : Word) : Reg := w.extractLsb' 8 4

/-- `y = w[7:4]`. -/
def yField (w : Word) : Reg := w.extractLsb' 4 4

/-- `kk = w[7:0]`. -/
def kkField (w : Word) : Byte := w.extractLsb' 0 8

/-- `n = w[3:0]`. -/
def nField (w : Word) : Nibble := w.extractLsb' 0 4

/-! ## The two-level lookup (R107 to R109) -/

/-- Family 0x0, keyed by `kk`; bits 11:8 take no part (R111). -/
def decodeFamily0 (w : Word) : Instr :=
  match (kkField w).toNat with
  | 0xE0 => .cls (xField w)
  | 0xEE => .ret (xField w)
  | _ => .unknown w

/-- Family 0x8, keyed by `n` (R112). -/
def decodeFamily8 (w : Word) : Instr :=
  match (nField w).toNat with
  | 0x0 => .ldReg (xField w) (yField w)
  | 0x1 => .orReg (xField w) (yField w)
  | 0x2 => .andReg (xField w) (yField w)
  | 0x3 => .xorReg (xField w) (yField w)
  | 0x4 => .addReg (xField w) (yField w)
  | 0x5 => .sub (xField w) (yField w)
  | 0x6 => .shr (xField w) (yField w)
  | 0x7 => .subn (xField w) (yField w)
  | 0xE => .shl (xField w) (yField w)
  | _ => .unknown w

/-- Family 0xE, keyed by `kk` (R113). -/
def decodeFamilyE (w : Word) : Instr :=
  match (kkField w).toNat with
  | 0x9E => .skp (xField w)
  | 0xA1 => .sknp (xField w)
  | _ => .unknown w

/-- Family 0xF, keyed by `kk` (R114). -/
def decodeFamilyF (w : Word) : Instr :=
  match (kkField w).toNat with
  | 0x07 => .ldVxDt (xField w)
  | 0x0A => .ldVxK (xField w)
  | 0x15 => .ldDtVx (xField w)
  | 0x18 => .ldStVx (xField w)
  | 0x1E => .addI (xField w)
  | 0x29 => .ldF (xField w)
  | 0x33 => .ldB (xField w)
  | 0x55 => .storeRegs (xField w)
  | 0x65 => .loadRegs (xField w)
  | _ => .unknown w

/-- `Decode(w)`: total over the 65536 words (R106, R110, R119). -/
def decodeWord (w : Word) : Instr :=
  match (opField w).toNat with
  | 0x0 => decodeFamily0 w
  | 0x1 => .jp (nnnField w)
  | 0x2 => .call (nnnField w)
  | 0x3 => .seImm (xField w) (kkField w)
  | 0x4 => .sneImm (xField w) (kkField w)
  | 0x5 => .seReg (xField w) (yField w) (nField w)
  | 0x6 => .ldImm (xField w) (kkField w)
  | 0x7 => .addImm (xField w) (kkField w)
  | 0x8 => decodeFamily8 w
  | 0x9 => .sneReg (xField w) (yField w) (nField w)
  | 0xA => .ldI (nnnField w)
  | 0xB => .jpV0 (nnnField w)
  | 0xC => .rnd (xField w) (kkField w)
  | 0xD => .drw (xField w) (yField w) (nField w)
  | 0xE => decodeFamilyE w
  | _ => decodeFamilyF w

/-- Big-endian: the byte at the lower address is the high byte (R75, R101). -/
def wordOfBytes (hi lo : Byte) : Word := hi ++ lo

/-- Why a list of bytes holds no instruction. -/
inductive DecodeError where
  /-- Fewer than the two bytes of an instruction (R100). Raised by `decode` only: a fetch always reads two bytes. -/
  | truncated
  deriving DecidableEq, Repr

/-- The decoder on bytes, lowest address first, with the bytes that follow the instruction (R100, R101). -/
def decode : List Byte → Except DecodeError (Instr × List Byte)
  | hi :: lo :: rest => .ok (decodeWord (wordOfBytes hi lo), rest)
  | [_] => .error .truncated
  | [] => .error .truncated

/-! ## The encoder (R103, R110 to R114) -/

/-- Format A: `op nnn`. -/
def packA (op : Nibble) (nnn : Addr) : Word := op ++ nnn

/-- Formats B, D and E: `op x kk`, the byte an immediate or a fixed key. -/
def packB (op x : Nibble) (kk : Byte) : Word := op ++ x ++ kk

/-- Format C: `op x y n`. -/
def packC (op x y n : Nibble) : Word := op ++ x ++ y ++ n

/-- The word of an instruction, ignored bits as the instruction holds them. -/
def encode : Instr → Word
  | .cls ign => packB 0x0 ign 0xE0
  | .ret ign => packB 0x0 ign 0xEE
  | .jp nnn => packA 0x1 nnn
  | .call nnn => packA 0x2 nnn
  | .seImm x kk => packB 0x3 x kk
  | .sneImm x kk => packB 0x4 x kk
  | .seReg x y ign => packC 0x5 x y ign
  | .ldImm x kk => packB 0x6 x kk
  | .addImm x kk => packB 0x7 x kk
  | .sneReg x y ign => packC 0x9 x y ign
  | .ldI nnn => packA 0xA nnn
  | .jpV0 nnn => packA 0xB nnn
  | .rnd x kk => packB 0xC x kk
  | .drw x y n => packC 0xD x y n
  | .ldReg x y => packC 0x8 x y 0x0
  | .orReg x y => packC 0x8 x y 0x1
  | .andReg x y => packC 0x8 x y 0x2
  | .xorReg x y => packC 0x8 x y 0x3
  | .addReg x y => packC 0x8 x y 0x4
  | .sub x y => packC 0x8 x y 0x5
  | .shr x y => packC 0x8 x y 0x6
  | .subn x y => packC 0x8 x y 0x7
  | .shl x y => packC 0x8 x y 0xE
  | .skp x => packB 0xE x 0x9E
  | .sknp x => packB 0xE x 0xA1
  | .ldVxDt x => packB 0xF x 0x07
  | .ldVxK x => packB 0xF x 0x0A
  | .ldDtVx x => packB 0xF x 0x15
  | .ldStVx x => packB 0xF x 0x18
  | .addI x => packB 0xF x 0x1E
  | .ldF x => packB 0xF x 0x29
  | .ldB x => packB 0xF x 0x33
  | .storeRegs x => packB 0xF x 0x55
  | .loadRegs x => packB 0xF x 0x65
  | .unknown w => w

/-- The bytes of an instruction, lowest address first (R75). -/
def encodeBytes (i : Instr) : List Byte := [(encode i).extractLsb' 8 8, (encode i).extractLsb' 0 8]

/-! ## Assembling (R115, R120, R121) -/

/-- The instruction with every bit that this core's decoder and effects ignore cleared: bits 11:8 of CLS and RET, bits
3:0 of SE and SNE Vx,Vy, and the `y` of SHR and SHL, whose canonical forms have y = 0 (R115, R121). -/
def Instr.canonical : Instr → Instr
  | .cls _ => .cls 0
  | .ret _ => .ret 0
  | .seReg x y _ => .seReg x y 0
  | .sneReg x y _ => .sneReg x y 0
  | .shr x _ => .shr x 0
  | .shl x _ => .shl x 0
  | .jp nnn => .jp nnn
  | .call nnn => .call nnn
  | .seImm x kk => .seImm x kk
  | .sneImm x kk => .sneImm x kk
  | .ldImm x kk => .ldImm x kk
  | .addImm x kk => .addImm x kk
  | .ldI nnn => .ldI nnn
  | .jpV0 nnn => .jpV0 nnn
  | .rnd x kk => .rnd x kk
  | .drw x y n => .drw x y n
  | .ldReg x y => .ldReg x y
  | .orReg x y => .orReg x y
  | .andReg x y => .andReg x y
  | .xorReg x y => .xorReg x y
  | .addReg x y => .addReg x y
  | .sub x y => .sub x y
  | .subn x y => .subn x y
  | .skp x => .skp x
  | .sknp x => .sknp x
  | .ldVxDt x => .ldVxDt x
  | .ldVxK x => .ldVxK x
  | .ldDtVx x => .ldDtVx x
  | .ldStVx x => .ldStVx x
  | .addI x => .addI x
  | .ldF x => .ldF x
  | .ldB x => .ldB x
  | .storeRegs x => .storeRegs x
  | .loadRegs x => .loadRegs x
  | .unknown w => .unknown w

/-- The assembled word of a form: its canonical encoding (R121). -/
def assemble (i : Instr) : Word := encode i.canonical

/-- One hexadecimal digit, a capital letter above 9 (R120). -/
def hexDigit (n : Nibble) : String :=
  (("0123456789ABCDEF".toList)[n.toNat]?.getD '0').toString

/-- A register operand, `V0` to `VF` (R120). -/
def regText (x : Reg) : String := "V" ++ hexDigit x

/-- A byte operand in `0x` form (R120). -/
def byteText (kk : Byte) : String := "0x" ++ hexDigit (kk.extractLsb' 4 4) ++ hexDigit (kk.extractLsb' 0 4)

/-- An address operand in `0x` form (R120). -/
def addrText (nnn : Addr) : String :=
  "0x" ++ hexDigit (nnn.extractLsb' 8 4) ++ hexDigit (nnn.extractLsb' 4 4) ++ hexDigit (nnn.extractLsb' 0 4)

/-- The assembler text of an instruction in the 34 forms of R120; an unknown word has none (R122). -/
def Instr.text : Instr → Option String
  | .cls _ => some "CLS"
  | .ret _ => some "RET"
  | .jp nnn => some ("JP " ++ addrText nnn)
  | .call nnn => some ("CALL " ++ addrText nnn)
  | .seImm x kk => some ("SE " ++ regText x ++ "," ++ byteText kk)
  | .sneImm x kk => some ("SNE " ++ regText x ++ "," ++ byteText kk)
  | .seReg x y _ => some ("SE " ++ regText x ++ "," ++ regText y)
  | .ldImm x kk => some ("LD " ++ regText x ++ "," ++ byteText kk)
  | .addImm x kk => some ("ADD " ++ regText x ++ "," ++ byteText kk)
  | .sneReg x y _ => some ("SNE " ++ regText x ++ "," ++ regText y)
  | .ldI nnn => some ("LD I," ++ addrText nnn)
  | .jpV0 nnn => some ("JP V0," ++ addrText nnn)
  | .rnd x kk => some ("RND " ++ regText x ++ "," ++ byteText kk)
  | .drw x y n => some ("DRW " ++ regText x ++ "," ++ regText y ++ ",0x" ++ hexDigit n)
  | .ldReg x y => some ("LD " ++ regText x ++ "," ++ regText y)
  | .orReg x y => some ("OR " ++ regText x ++ "," ++ regText y)
  | .andReg x y => some ("AND " ++ regText x ++ "," ++ regText y)
  | .xorReg x y => some ("XOR " ++ regText x ++ "," ++ regText y)
  | .addReg x y => some ("ADD " ++ regText x ++ "," ++ regText y)
  | .sub x y => some ("SUB " ++ regText x ++ "," ++ regText y)
  | .shr x _ => some ("SHR " ++ regText x)
  | .subn x y => some ("SUBN " ++ regText x ++ "," ++ regText y)
  | .shl x _ => some ("SHL " ++ regText x)
  | .skp x => some ("SKP " ++ regText x)
  | .sknp x => some ("SKNP " ++ regText x)
  | .ldVxDt x => some ("LD " ++ regText x ++ ",DT")
  | .ldVxK x => some ("LD " ++ regText x ++ ",K")
  | .ldDtVx x => some ("LD DT," ++ regText x)
  | .ldStVx x => some ("LD ST," ++ regText x)
  | .addI x => some ("ADD I," ++ regText x)
  | .ldF x => some ("LD F," ++ regText x)
  | .ldB x => some ("LD B," ++ regText x)
  | .storeRegs x => some ("LD [I]," ++ regText x)
  | .loadRegs x => some ("LD " ++ regText x ++ ",[I]")
  | .unknown _ => none

/-! ## The opcode table -/

/-- The mask and the match of an instruction's row of spec/opcode_table.json; the row "(unknown)" has none. -/
def Instr.row : Instr → Option (Word × Word)
  | .cls _ => some (0xF0FF, 0x00E0)
  | .ret _ => some (0xF0FF, 0x00EE)
  | .jp _ => some (0xF000, 0x1000)
  | .call _ => some (0xF000, 0x2000)
  | .seImm _ _ => some (0xF000, 0x3000)
  | .sneImm _ _ => some (0xF000, 0x4000)
  | .seReg _ _ _ => some (0xF000, 0x5000)
  | .ldImm _ _ => some (0xF000, 0x6000)
  | .addImm _ _ => some (0xF000, 0x7000)
  | .sneReg _ _ _ => some (0xF000, 0x9000)
  | .ldI _ => some (0xF000, 0xA000)
  | .jpV0 _ => some (0xF000, 0xB000)
  | .rnd _ _ => some (0xF000, 0xC000)
  | .drw _ _ _ => some (0xF000, 0xD000)
  | .ldReg _ _ => some (0xF00F, 0x8000)
  | .orReg _ _ => some (0xF00F, 0x8001)
  | .andReg _ _ => some (0xF00F, 0x8002)
  | .xorReg _ _ => some (0xF00F, 0x8003)
  | .addReg _ _ => some (0xF00F, 0x8004)
  | .sub _ _ => some (0xF00F, 0x8005)
  | .shr _ _ => some (0xF00F, 0x8006)
  | .subn _ _ => some (0xF00F, 0x8007)
  | .shl _ _ => some (0xF00F, 0x800E)
  | .skp _ => some (0xF0FF, 0xE09E)
  | .sknp _ => some (0xF0FF, 0xE0A1)
  | .ldVxDt _ => some (0xF0FF, 0xF007)
  | .ldVxK _ => some (0xF0FF, 0xF00A)
  | .ldDtVx _ => some (0xF0FF, 0xF015)
  | .ldStVx _ => some (0xF0FF, 0xF018)
  | .addI _ => some (0xF0FF, 0xF01E)
  | .ldF _ => some (0xF0FF, 0xF029)
  | .ldB _ => some (0xF0FF, 0xF033)
  | .storeRegs _ => some (0xF0FF, 0xF055)
  | .loadRegs _ => some (0xF0FF, 0xF065)
  | .unknown _ => none

/-- The bytes in memory of the instruction whose bits, numbered as spec/opcode_table.json numbers them, are `w`: the
high byte first (R75), every bit above `nbits` zero. -/
def tableBytes (nbits w : Nat) : List Byte :=
  let v : Word := BitVec.ofNat 16 (w % 2 ^ nbits)
  [v.extractLsb' 8 8, v.extractLsb' 0 8]

/-- The instruction the decoder reads from the table's word `w` of `nbits` bits. No instruction is longer than 16 bits
(R100), so a longer row is refused. -/
def decodeTableWord (nbits w : Nat) : Option Instr :=
  if nbits ≤ 16 then
    match decode (tableBytes nbits w) with
    | .ok (i, _) => some i
    | .error _ => none
  else none

end Sys2Proof
end

