-- ==== Sys2Proof/Config.lean ====
section
/-! DEFINITION. What an implementation fixes, and the values the spec leaves open (spec 00_scope.md section 3,
92_eei_decisions.md D17, D26 to D28). The widths and counts of R7, R9 to R12 are the types of `State`. The numeric
literals are the spec's; it says that they are unaudited (UNVERIFIED, log entry 13). -/

namespace Sys2Proof

/-- 4096 bytes of memory (R8). -/
def Config.memSize : Nat := 0x1000

/-- The font's first address (R13). -/
def Config.fontBase : Nat := 0x050

/-- Bytes of one glyph (R13). -/
def Config.fontGlyph : Nat := 5

/-- Bytes of the font: 16 glyphs (R13). -/
def Config.fontSize : Nat := 80

/-- Where a ROM is loaded and execution starts (R13, R34). -/
def Config.romBase : Nat := 0x200

/-- The largest ROM that fits, in bytes (R13, R354). -/
def Config.romMax : Nat := 3584

/-- Framebuffer columns (R11). -/
def Config.fbW : Nat := 64

/-- Framebuffer rows (R11). -/
def Config.fbH : Nat := 32

/-- `SHIFT_USES_VY` at its normative value (R14, D26; log entry 5). -/
def Config.shiftUsesVy : Bool := false

/-- `FONT_BYTES`: the glyphs of the digits 0 to 7 (R44). -/
def Config.fontLow : List Byte :=
  [0xF0, 0x90, 0x90, 0x90, 0xF0] ++ [0x20, 0x60, 0x20, 0x20, 0x70] ++
  [0xF0, 0x10, 0xF0, 0x80, 0xF0] ++ [0xF0, 0x10, 0xF0, 0x10, 0xF0] ++
  [0x90, 0x90, 0xF0, 0x10, 0x10] ++ [0xF0, 0x80, 0xF0, 0x10, 0xF0] ++
  [0xF0, 0x80, 0xF0, 0x90, 0xF0] ++ [0xF0, 0x10, 0x20, 0x40, 0x40]

/-- `FONT_BYTES`: the glyphs of the digits 8 to F (R44). -/
def Config.fontHigh : List Byte :=
  [0xF0, 0x90, 0xF0, 0x90, 0xF0] ++ [0xF0, 0x90, 0xF0, 0x10, 0xF0] ++
  [0xF0, 0x90, 0xF0, 0x90, 0x90] ++ [0xE0, 0x90, 0xE0, 0x90, 0xE0] ++
  [0xF0, 0x80, 0x80, 0x80, 0xF0] ++ [0xE0, 0x90, 0x90, 0x90, 0xE0] ++
  [0xF0, 0x80, 0xF0, 0x80, 0xF0] ++ [0xF0, 0x80, 0xF0, 0x80, 0x80]

/-- `FONT_BYTES`, the spec's table, which it marks as general knowledge (R15, R44, D27, G5; UNVERIFIED, log entry 6). -/
def Config.fontBytes : List Byte := Config.fontLow ++ Config.fontHigh

/-- `RandByte()`: the byte of the n-th draw, a free value with no law (R46, R190, D17; log entry 1). -/
opaque Config.randByte : Nat → Byte

/-- `PIXEL_ON`: the presented value of an on pixel, open in the spec (R43, D28; log entry 4). -/
opaque Config.pixelOn : Nat

end Sys2Proof
end

