-- ==== Sys2Proof/Machine/State.lean ====
section
/-! DEFINITION. The machine's state (spec 10_state.md), the answers of a step that are not a next state, and the state
after reset (spec 70_reset_and_hazards.md R350). -/

namespace Sys2Proof.Machine

/-- The memory bytes that differ from what an unlisted address reads as, in strictly rising order of address. -/
abbrev Memory := List Host.Cell

/-- The pixels: 32 rows of 64 one-bit pixels, bit x of row y for `FB[y][x]` (R42, R230; DESIGN CHOICE, log entry 11). -/
abbrev Framebuffer := Vector (BitVec 64) 32

/-- The outcome of a step that was not aborted (spec 60_exceptions.md R301, codes 0 to 2). -/
inductive Report where
  /-- An instruction completed (R302). -/
  | advanced
  /-- LD Vx,K met no pressed key (R270). -/
  | parked
  /-- The word, fetched from the address, matches no instruction (R304). -/
  | unknownOpcode (word addr : Word)
  deriving DecidableEq, Repr

/-- The errors that abort a step and leave the state as before it (R305). Safe: the spec's own errors. -/
inductive Fault where
  /-- Raised by CALL with SP = 16 (R306): the instruction's word and address. Safe. -/
  | stackOverflow (word addr : Word)
  /-- Raised by RET with SP = 0 (R307): the instruction's word and address. Safe. -/
  | stackUnderflow (word addr : Word)
  /-- Raised by LD B,Vx and LD [I],Vx storing into the font (R308): word, address, masked target address. Safe. -/
  | fontWrite (word addr : Word) (target : Addr)
  deriving DecidableEq, Repr

/-- Why an instruction has no meaning in the model. Safe. -/
inductive Refusal where
  /-- For an arm of `exec` that is not written yet; no arm raises it. Safe. -/
  | notModelled (mnemonic : String)
  deriving DecidableEq, Repr

/-- Everything the spec gives the machine (R30 to R47), the outcome port of R49 and the model's counter of draws. -/
structure State where
  /-- V0 to VF (R30). -/
  v : Vector Byte 16
  /-- The program counter (R34). -/
  pc : Word
  /-- The index register I (R36). -/
  i : Word
  /-- The stack pointer, 0 to 16 (R37, R38; log entry 12). -/
  sp : Fin 17
  /-- The call stack's slots S[0] to S[15] (R37). -/
  stack : Vector Word 16
  /-- The delay timer (R39). -/
  dt : Byte
  /-- The sound timer (R40). -/
  st : Byte
  /-- The keypad K[0] to K[15], true = pressed (R41). -/
  keys : Vector Bool 16
  /-- The framebuffer (R42). -/
  fb : Framebuffer
  /-- The memory (R70). -/
  mem : Memory
  /-- The outcome port: the last completed step's report (R49, R301; the model's latch, log entry 2). -/
  outcome : Report
  /-- How many random bytes have been drawn: the model's own field, which picks the next free value (log entry 1). -/
  rndDraws : Nat
  deriving DecidableEq, Repr

/-- The machine right after Reset (R350). Memory lists nothing: an unlisted address reads as its reset contents (R73).
`outcome` and `rndDraws` are the model's own (DESIGN CHOICE, log entries 2 and 1). -/
def State.reset : State where
  v := Vector.replicate 16 0
  pc := 0x0200
  i := 0
  sp := 0
  stack := Vector.replicate 16 0
  dt := 0
  st := 0
  keys := Vector.replicate 16 false
  fb := Vector.replicate 32 0
  mem := []
  outcome := .advanced
  rndDraws := 0

/-- The answer of a meaning and of a step. -/
abbrev Result := Host.Outcome State Fault Refusal

end Sys2Proof.Machine
end

