-- ==== Sys2Proof/Machine/Ops.lean ====
section
/-! DEFINITION. The named operations over memory, registers, program counter and call stack, fetching an instruction,
and the ways a step ends (spec 10_state.md, 20_memory.md, 30_encoding.md section 4, 60_exceptions.md section 1). -/

namespace Sys2Proof.Machine

/-! ## Memory (20_memory.md) -/

/-- What an unlisted address reads as: its contents after reset, the font at 0x050 to 0x09F and 0 elsewhere (R44, R72,
R73; log entry 6). -/
def Memory.unlisted (a : Nat) : Byte :=
  if Config.fontBase ≤ a ∧ a < Config.fontBase + Config.fontSize then
    Config.fontBytes.getD (a - Config.fontBase) 0
  else 0

/-- The byte at an address. -/
def Memory.read : Memory → Nat → Byte
  | [], a => Memory.unlisted a
  | (b, w) :: t, a => if a = b then w else Memory.read t a

/-- The memory without an entry for the address. -/
def Memory.erase : Memory → Nat → Memory
  | [], _ => []
  | (b, w) :: t, a => if a = b then Memory.erase t a else (b, w) :: Memory.erase t a

/-- The memory with an entry added before the first entry of a higher address. -/
def Memory.insert : Memory → Nat → Byte → Memory
  | [], a, v => [(a, v)]
  | (b, w) :: t, a, v => if a < b then (a, v) :: (b, w) :: t else (b, w) :: Memory.insert t a v

/-- Writes one byte; writing what an unlisted address reads as removes the entry. -/
def Memory.write (m : Memory) (a : Nat) (v : Byte) : Memory :=
  if v = Memory.unlisted a then Memory.erase m a else Memory.insert (Memory.erase m a) a v

/-- The canonical form from address `lo` on: addresses strictly rising and below 4096, no entry equal to what an
unlisted address reads as. -/
def Memory.wfFrom (lo : Nat) : Memory → Bool
  | [] => true
  | (a, v) :: t => decide (lo ≤ a) && decide (a < Config.memSize) && v != Memory.unlisted a && Memory.wfFrom (a + 1) t

/-- The canonical form of a memory. -/
def Memory.wf (m : Memory) : Bool := Memory.wfFrom 0 m

/-- `address & 0xFFF`: every address is masked to 12 bits before access (R8, R71). -/
def maskAddr (w : Word) : Addr := w.setWidth 12

/-- `M[a]`. -/
def State.readMem (s : State) (a : Addr) : Byte := s.mem.read a.toNat

/-- `M[a] <- v`, with no font check. -/
def State.writeMem (s : State) (a : Addr) (v : Byte) : State := { s with mem := s.mem.write a.toNat v }

/-- The masked address lies in the font region 0x050 to 0x09F (R78). -/
def inFont (a : Addr) : Bool :=
  decide (Config.fontBase ≤ a.toNat) && decide (a.toNat < Config.fontBase + Config.fontSize)

/-! ## Registers and program counter (10_state.md) -/

/-- `V[x]`. -/
def State.readV (s : State) (x : Reg) : Byte := s.v[x.toNat]

/-- `V[x] <- b`. -/
def State.writeV (s : State) (x : Reg) (b : Byte) : State := { s with v := s.v.set x.toNat b }

/-- The number of VF (R31). -/
def regF : Reg := 0xF

/-- `pc <- t`. -/
def State.writePc (s : State) (t : Word) : State := { s with pc := t }

/-- `I <- t`. -/
def State.writeI (s : State) (t : Word) : State := { s with i := t }

/-- `DT <- b`. -/
def State.writeDt (s : State) (b : Byte) : State := { s with dt := b }

/-- `ST <- b`. -/
def State.writeSt (s : State) (b : Byte) : State := { s with st := b }

/-- `FB <- f`. -/
def State.writeFb (s : State) (f : Framebuffer) : State := { s with fb := f }

/-- `SP <- n`. -/
def State.writeSp (s : State) (n : Fin 17) : State := { s with sp := n }

/-- The call stack replaced. -/
def State.writeStack (s : State) (k : Vector Word 16) : State := { s with stack := k }

/-- The outcome port set (R49). -/
def State.writeOutcome (s : State) (o : Report) : State := { s with outcome := o }

/-- `pc <- (pc + 2) mod 2^16`: the fetch advance, and a taken skip (R35, R123, R140). -/
def State.advancePc (s : State) : State := s.writePc (s.pc + 2)

/-- Skips the next word when the condition holds (R140). -/
def State.skipIf (s : State) (c : Bool) : State := if c then s.advancePc else s

/-- `pc <- (pc - 2) mod 2^16`: back to the executing instruction (R266). -/
def State.rollBackPc (s : State) : State := s.writePc (s.pc - 2)

/-- The address of the executing instruction, `(pc - 2) mod 2^16` (R124, R304; 40_flow.md section 1). -/
def State.instrAddr (s : State) : Word := s.pc - 2

/-- `K[k]`. -/
def State.key (s : State) (k : Nibble) : Bool := s.keys[k.toNat]

/-! ## Call stack (R37, R141, R143) -/

/-- `S[SP] <- w; SP <- SP + 1`; none when SP = 16. -/
def State.push (s : State) (w : Word) : Option State :=
  if h : s.sp.val < 16 then
    some ((s.writeStack (s.stack.set s.sp.val w)).writeSp ⟨s.sp.val + 1, by omega⟩)
  else none

/-- `SP <- SP - 1`, with the slot then pointed to, which is not cleared; none when SP = 0. -/
def State.pop (s : State) : Option (Word × State) :=
  if h : 0 < s.sp.val then
    some (s.stack[s.sp.val - 1]'(by omega), s.writeSp ⟨s.sp.val - 1, by omega⟩)
  else none

/-! ## The random-byte source (R46, R190) -/

/-- `RandByte()`: the next free value. -/
def State.randByte (s : State) : Byte := Config.randByte s.rndDraws

/-- One byte has been drawn. -/
def State.drawn (s : State) : State := { s with rndDraws := s.rndDraws + 1 }

/-! ## How a step ends (60_exceptions.md section 1)

The core has no trap entry and no return from one: an error saves nothing, changes no mode and goes to no handler
(R300, R312, R313). Raising an error is the one operation `raise`. -/

/-- `raise E(info)`: the step is aborted and the state stays as before it (R305); the fault goes to the host. -/
def raise (f : Fault) : Result := .fault f

/-- The instruction completed: outcome `Advanced` (R302). -/
def complete (s : State) : Result := .next (s.writeOutcome .advanced)

/-- `park`: outcome `Parked` (R270). -/
def park (s : State) : Result := .next (s.writeOutcome .parked)

/-- `report Unknown(w)`: outcome `UnknownOpcode(w, addr)`; nothing else changes (R304). -/
def reportUnknown (w : Word) (s : State) : Result := .next (s.writeOutcome (.unknownOpcode w s.instrAddr))

/-! ## Fetch (R75, R77, R101) -/

/-- `w = M[pc & 0xFFF] ++ M[(pc + 1) & 0xFFF]`. -/
def fetchWord (s : State) : Word :=
  wordOfBytes (s.readMem (maskAddr s.pc)) (s.readMem (maskAddr (s.pc + 1)))

/-- The instruction at the program counter. -/
def fetchInstr (s : State) : Instr := decodeWord (fetchWord s)

/-- Places an instruction's word where the next fetch reads it, with no font check. -/
def State.placeWord (s : State) (w : Word) : State :=
  (s.writeMem (maskAddr s.pc) (w.extractLsb' 8 8)).writeMem (maskAddr (s.pc + 1)) (w.extractLsb' 0 8)

end Sys2Proof.Machine
end

