-- ==== Sys2Proof/Machine/Flags.lean ====
section
/-! DEFINITION. The flag computations: VF as carry, no-borrow, bit shifted out and collision (spec 10_state.md R31,
41_alu.md R170, R171). -/

namespace Sys2Proof.Machine

/-- A flag as VF holds it, 1 or 0 (R170). -/
def flagByte (f : Bool) : Byte := if f then 1 else 0

/-- The carry out of the 9-bit sum (R182). -/
def carryOut (a b : Byte) : Bool := decide (255 < a.toNat + b.toNat)

/-- No borrow, by the document's strict test (R184, R187, D35). -/
def noBorrow (a b : Byte) : Bool := decide (b.toNat < a.toNat)

/-- The bit that a right shift by 1 shifts out (R186). -/
def lowBit (b : Byte) : Bool := b.getLsbD 0

/-- The bit that a left shift by 1 shifts out (R188). -/
def highBit (b : Byte) : Bool := b.getLsbD 7

/-- Writes VF with the flag and then Vx with the result, so that with x = 15 the result stays (R171). -/
def State.writeFlagged (s : State) (x : Reg) (f : Bool) (r : Byte) : State :=
  (s.writeV regF (flagByte f)).writeV x r

end Sys2Proof.Machine
end

