-- ==== Sys2Proof/Machine/Operands.lean ====
section
/-! DEFINITION. The operand forms: address and byte fields (spec 30_encoding.md R104), bytes at I plus an offset (R71,
R200), multi-byte stores with the font check (R78, R207), multi-register loads, the keypad index (R260), the shift
source (R14), the font glyph address (R203) and decimal digits (R204). -/

namespace Sys2Proof.Machine

/-- `zext_16(nnn)` (R104). -/
def zextAddr (nnn : Addr) : Word := nnn.setWidth 16

/-- `zext_16(b)`. -/
def zextByte (b : Byte) : Word := b.setWidth 16

/-- The masked address of byte `k` of an access, `(I + k) & 0xFFF` (R71, R200). -/
def State.indexAddr (s : State) (k : Nat) : Addr := maskAddr (s.i + BitVec.ofNat 16 k)

/-- `M[(I + k) & 0xFFF]`. -/
def State.readIndexed (s : State) (k : Nat) : Byte := s.readMem (s.indexAddr k)

/-- The masked address of the lowest of the offsets 0 to n - 1 whose address is in the font (R207). -/
def State.fontHit (s : State) (n : Nat) : Option Addr := ((List.range n).map s.indexAddr).find? inFont

/-- Writes bytes at the offsets `k`, `k + 1`, … from I, in increasing order, with no check. -/
def State.writeIndexed : State → Nat → List Byte → State
  | s, _, [] => s
  | s, k, b :: bs => State.writeIndexed (s.writeMem (s.indexAddr k) b) (k + 1) bs

/-- A store instruction's bytes: every address is checked first, then all are written (R207). `word` is the storing
instruction's own, for the fault's info (R301, R308). -/
def storeIndexed (word : Word) (bs : List Byte) (s : State) : Result :=
  match s.fontHit bs.length with
  | some a => raise (.fontWrite word s.instrAddr a)
  | none => complete (s.writeIndexed 0 bs)

/-- `V[0]` to `V[x]` (R205). -/
def State.regsUpTo (s : State) (x : Reg) : List Byte :=
  (List.range (x.toNat + 1)).map fun k => s.readV (BitVec.ofNat 4 k)

/-- `for k = 0 to n - 1: V[k] <- M[(I + k) & 0xFFF]` (R206). -/
def State.loadIndexed : Nat → State → State
  | 0, s => s
  | n + 1, s =>
    let t := State.loadIndexed n s
    t.writeV (BitVec.ofNat 4 n) (t.readIndexed n)

/-- The key that a register's value selects, its low four bits (R260). -/
def keyIndex (b : Byte) : Nibble := b.setWidth 4

/-- The lowest-numbered pressed key (R266). -/
def State.firstKey (s : State) : Option Nibble :=
  ((List.range 16).map (BitVec.ofNat 4)).find? s.key

/-- The shifted operand: Vx, or Vy in the compatibility mode (R14, R186, R188). -/
def shiftSource (usesVy : Bool) (vx vy : Byte) : Byte := if usesVy then vy else vx

/-- `0x050 + 5 * zext_16(b)` (R203). -/
def glyphAddr (b : Byte) : Word := BitVec.ofNat 16 (Config.fontBase + Config.fontGlyph * b.toNat)

/-- The hundreds, tens and ones of a byte (R204). -/
def bcdDigits (b : Byte) : List Byte := [b / 100, b / 10 % 10, b % 10]

end Sys2Proof.Machine
end

