-- ==== Sys2Proof/Machine/Alu.lean ====
section
/-! DEFINITION. Register loads and the ALU (spec 41_alu.md). Every operand is read before any write (R125). -/

namespace Sys2Proof.Machine

/-- LD Vx,kk (R172). -/
def execLdImm (x : Reg) (kk : Byte) (s : State) : Result := complete (s.writeV x kk)

/-- ADD Vx,kk: no flag (R174). -/
def execAddImm (x : Reg) (kk : Byte) (s : State) : Result := complete (s.writeV x (s.readV x + kk))

/-- LD Vx,Vy (R176). -/
def execLdReg (x y : Reg) (s : State) : Result := complete (s.writeV x (s.readV y))

/-- OR Vx,Vy: no flag (R178). -/
def execOrReg (x y : Reg) (s : State) : Result := complete (s.writeV x (s.readV x ||| s.readV y))

/-- AND Vx,Vy: no flag (R179). -/
def execAndReg (x y : Reg) (s : State) : Result := complete (s.writeV x (s.readV x &&& s.readV y))

/-- XOR Vx,Vy: no flag (R180). -/
def execXorReg (x y : Reg) (s : State) : Result := complete (s.writeV x (s.readV x ^^^ s.readV y))

/-- ADD Vx,Vy (R182). -/
def execAddReg (x y : Reg) (s : State) : Result :=
  complete (s.writeFlagged x (carryOut (s.readV x) (s.readV y)) (s.readV x + s.readV y))

/-- SUB Vx,Vy (R184). -/
def execSub (x y : Reg) (s : State) : Result :=
  complete (s.writeFlagged x (noBorrow (s.readV x) (s.readV y)) (s.readV x - s.readV y))

/-- SUBN Vx,Vy (R187). -/
def execSubn (x y : Reg) (s : State) : Result :=
  complete (s.writeFlagged x (noBorrow (s.readV y) (s.readV x)) (s.readV y - s.readV x))

/-- A right shift in either mode of `SHIFT_USES_VY` (R14, R186). -/
def shiftRight (usesVy : Bool) (x y : Reg) (s : State) : Result :=
  let src := shiftSource usesVy (s.readV x) (s.readV y)
  complete (s.writeFlagged x (lowBit src) (src >>> 1))

/-- A left shift in either mode of `SHIFT_USES_VY` (R14, R188). -/
def shiftLeft (usesVy : Bool) (x y : Reg) (s : State) : Result :=
  let src := shiftSource usesVy (s.readV x) (s.readV y)
  complete (s.writeFlagged x (highBit src) (src <<< 1))

/-- SHR Vx (R186). -/
def execShr (x y : Reg) (s : State) : Result := shiftRight Config.shiftUsesVy x y s

/-- SHL Vx (R188). -/
def execShl (x y : Reg) (s : State) : Result := shiftLeft Config.shiftUsesVy x y s

/-- RND Vx,kk: one byte is drawn, whatever kk is (R190). -/
def execRnd (x : Reg) (kk : Byte) (s : State) : Result := complete (s.drawn.writeV x (s.randByte &&& kk))

end Sys2Proof.Machine
end

