-- ==== Sys2Proof/Machine/Display.lean ====
section
/-! DEFINITION. The framebuffer, the sprite blit and collision (spec 43_display.md). -/

namespace Sys2Proof.Machine

/-- `FB[y][x]`; off outside the 64 by 32 array, which no rule reads. -/
def pixelAt (f : Framebuffer) (x y : Nat) : Bool :=
  if h : y < 32 then (f[y]).getLsbD x else false

/-- `FB[y][x] <- not FB[y][x]`, for x below 64 and y below 32. -/
def togglePixel (f : Framebuffer) (x y : Nat) : Framebuffer :=
  if h : y < 32 then f.set y (f[y] ^^^ BitVec.twoPow 64 x) else f

/-- Draws one set sprite bit at (x, y): clipped off the screen (R234), else a collision when the pixel is on, and the
pixel toggles (R232, R235). -/
def drawPixel (x y : Nat) (acc : Framebuffer × Bool) : Framebuffer × Bool :=
  if x < Config.fbW ∧ y < Config.fbH then (togglePixel acc.1 x y, acc.2 || pixelAt acc.1 x y) else acc

/-- Bit `7 - c` of a sprite byte, for column `c` below 8: bit 7 is the leftmost pixel (R230, R232). -/
def spriteBit (b : Byte) (c : Nat) : Bool := b.getLsbD (7 - c)

/-- Draws the columns below `k` of a sprite row at row `y`, left column `x0`. -/
def drawColumns (b : Byte) (x0 y : Nat) (acc : Framebuffer × Bool) : Nat → Framebuffer × Bool
  | 0 => acc
  | k + 1 =>
    let before := drawColumns b x0 y acc k
    if spriteBit b k then drawPixel (x0 + k) y before else before

/-- Draws the rows below `n` of the sprite at I, origin (x0, y0), from no collision (R232). -/
def drawRows (s : State) (x0 y0 : Nat) : Nat → Framebuffer × Bool
  | 0 => (s.fb, false)
  | r + 1 => drawColumns (s.readIndexed r) x0 (y0 + r) (drawRows s x0 y0 r) 8

/-- The sprite's origin column: `Vx mod 64` (R233). -/
def anchorX (b : Byte) : Nat := b.toNat % Config.fbW

/-- The sprite's origin row: `Vy mod 32` (R233). -/
def anchorY (b : Byte) : Nat := b.toNat % Config.fbH

/-- CLS (R231). -/
def execCls (s : State) : Result := complete (s.writeFb (Vector.replicate 32 0))

/-- DRW Vx,Vy,n: the origin is read before VF is written (R125, R232). -/
def execDrw (x y : Reg) (n : Nibble) (s : State) : Result :=
  let drawn := drawRows s (anchorX (s.readV x)) (anchorY (s.readV y)) n.toNat
  complete ((s.writeFb drawn.1).writeV regF (flagByte drawn.2))

end Sys2Proof.Machine
end

