-- ==== Sys2Proof/Machine/Flow.lean ====
section
/-! DEFINITION. Control transfer and skips (spec 40_flow.md). `s.pc` is the instruction's address plus 2 (R124). -/

namespace Sys2Proof.Machine

/-- RET (R141). -/
def execRet (ign : Nibble) (s : State) : Result :=
  match s.pop with
  | none => raise (.stackUnderflow (encode (.ret ign)) s.instrAddr)
  | some (w, t) => complete (t.writePc w)

/-- JP addr (R142). -/
def execJp (nnn : Addr) (s : State) : Result := complete (s.writePc (zextAddr nnn))

/-- CALL addr (R143). -/
def execCall (nnn : Addr) (s : State) : Result :=
  match s.push s.pc with
  | none => raise (.stackOverflow (encode (.call nnn)) s.instrAddr)
  | some t => complete (t.writePc (zextAddr nnn))

/-- SE Vx,kk (R144). -/
def execSeImm (x : Reg) (kk : Byte) (s : State) : Result := complete (s.skipIf (s.readV x == kk))

/-- SNE Vx,kk (R145). -/
def execSneImm (x : Reg) (kk : Byte) (s : State) : Result := complete (s.skipIf (s.readV x != kk))

/-- SE Vx,Vy (R146). -/
def execSeReg (x y : Reg) (s : State) : Result := complete (s.skipIf (s.readV x == s.readV y))

/-- SNE Vx,Vy (R147). -/
def execSneReg (x y : Reg) (s : State) : Result := complete (s.skipIf (s.readV x != s.readV y))

/-- JP V0,addr: the sum is not masked (R148, D8). -/
def execJpV0 (nnn : Addr) (s : State) : Result := complete (s.writePc (zextAddr nnn + zextByte (s.readV 0)))

/-- A word that matches no instruction: a no-op with a report; the fetch advance stands (R304, D6). -/
def execUnknown (w : Word) (s : State) : Result := reportUnknown w s

end Sys2Proof.Machine
end

