-- ==== Sys2Proof/Machine/IndexMemory.lean ====
section
/-! DEFINITION. The index register and memory transfers (spec 42_index_memory.md). No transfer changes I (R200). -/

namespace Sys2Proof.Machine

/-- LD I,addr (R201). -/
def execLdI (nnn : Addr) (s : State) : Result := complete (s.writeI (zextAddr nnn))

/-- ADD I,Vx: 16 bits, no flag, no mask (R202). -/
def execAddI (x : Reg) (s : State) : Result := complete (s.writeI (s.i + zextByte (s.readV x)))

/-- LD F,Vx: the whole byte selects the glyph (R203, D15). -/
def execLdF (x : Reg) (s : State) : Result := complete (s.writeI (glyphAddr (s.readV x)))

/-- LD B,Vx (R204, R207). -/
def execLdB (x : Reg) (s : State) : Result := storeIndexed (encode (.ldB x)) (bcdDigits (s.readV x)) s

/-- LD [I],Vx (R205, R207). -/
def execStoreRegs (x : Reg) (s : State) : Result := storeIndexed (encode (.storeRegs x)) (s.regsUpTo x) s

/-- LD Vx,[I] (R206). -/
def execLoadRegs (x : Reg) (s : State) : Result := complete (s.loadIndexed (x.toNat + 1))

end Sys2Proof.Machine
end

