-- ==== Sys2Proof/Machine/TimersKeys.lean ====
section
/-! DEFINITION. The keypad and timer instructions (spec 44_timers_keys.md). -/

namespace Sys2Proof.Machine

/-- SKP Vx (R261). -/
def execSkp (x : Reg) (s : State) : Result := complete (s.skipIf (s.key (keyIndex (s.readV x))))

/-- SKNP Vx (R262). -/
def execSknp (x : Reg) (s : State) : Result := complete (s.skipIf (!s.key (keyIndex (s.readV x))))

/-- LD Vx,DT (R264). -/
def execLdVxDt (x : Reg) (s : State) : Result := complete (s.writeV x s.dt)

/-- LD Vx,K: the lowest pressed key, or back to this instruction and parked (R266, R270). -/
def execLdVxK (x : Reg) (s : State) : Result :=
  match s.firstKey with
  | some k => complete (s.writeV x (k.setWidth 8))
  | none => park s.rollBackPc

/-- LD DT,Vx (R272). -/
def execLdDtVx (x : Reg) (s : State) : Result := complete (s.writeDt (s.readV x))

/-- LD ST,Vx (R273). -/
def execLdStVx (x : Reg) (s : State) : Result := complete (s.writeSt (s.readV x))

end Sys2Proof.Machine
end

