-- ==== Sys2Proof/Machine/Step.lean ====
section
/-! DEFINITION. `Step` (spec 30_encoding.md R123): fetch, advance the program counter by 2, decode, execute. -/

namespace Sys2Proof.Machine

/-- One step. A fault leaves the state as it was before the step (R305), which the answer does not repeat. -/
def step (s : State) : Host.Outcome State Fault Refusal := exec (fetchInstr s) s.advancePc

/-- The state with the table's word `w` of `nbits` bits placed where `step` fetches next; the bits above `nbits` are
zero. It stands for a Load of the program (R353; log entry 9). -/
def State.withFetchWord (s : State) (nbits w : Nat) : State := s.placeWord (BitVec.ofNat 16 (w % 2 ^ nbits))

end Sys2Proof.Machine
end

