-- ==== Sys2Proof/Machine/HostOps.lean ====
section
/-! DEFINITION. What the host does to the core between steps, and what it observes (spec 10_state.md R48, R49;
60_exceptions.md R320, R325, R326; 70_reset_and_hazards.md R353, R354). -/

namespace Sys2Proof.Machine

/-- A timer after a tick: decremented when nonzero, never below 0 (R39, R320). -/
def tickTimer (b : Byte) : Byte := if b = 0 then 0 else b - 1

/-- `Tick` (R320). -/
def State.tick (s : State) : State := { s with dt := tickTimer s.dt, st := tickTimer s.st }

/-- `SetKeys` (R325). -/
def State.setKeys (s : State) (k : Vector Bool 16) : State := { s with keys := k }

/-- What `Load` answers (R49, R354). -/
inductive LoadResult where
  /-- The ROM was copied. -/
  | loadOk
  /-- The ROM is longer than 3584 bytes; memory is unchanged. -/
  | romTooLarge
  deriving DecidableEq, Repr

/-- Copies bytes to 0x200 + j, 0x200 + j + 1, … (R353); no address of a ROM that fits is in the font region. -/
def State.writeRom : State → Nat → List Byte → State
  | s, _, [] => s
  | s, j, b :: bs => State.writeRom (s.writeMem (BitVec.ofNat 12 (Config.romBase + j)) b) (j + 1) bs

/-- `Load(bytes)`: a ROM that does not fit is rejected before any write (R353, R354). That no Load comes after the
first Step (R355) is the session's check. -/
def State.load (s : State) (rom : List Byte) : LoadResult × State :=
  if rom.length ≤ Config.romMax then (.loadOk, s.writeRom 0 rom) else (.romTooLarge, s)

/-- `sound_active = (ST ≠ 0)` (R40, R326). -/
def State.soundActive (s : State) : Bool := s.st != 0

/-- The flat row-major framebuffer: element `y * 64 + x` is `FB[y][x]` (R42). -/
def State.fbFlat (s : State) : List Bool :=
  (List.range (Config.fbW * Config.fbH)).map fun k => pixelAt s.fb (k % Config.fbW) (k / Config.fbW)

/-- The framebuffer as presented: `PIXEL_ON` for an on pixel and zero for an off one (R43, R326). -/
def State.fbOut (s : State) : List Nat := s.fbFlat.map fun p => if p then Config.pixelOn else 0

end Sys2Proof.Machine
end

