-- ==== Sys2Proof/Machine/Session.lean ====
section
/-! DEFINITION. A session of host operations on the core, each atomic (spec 10_state.md R48, R49; 60_exceptions.md R301,
R305, R314, R331; 70_reset_and_hazards.md R355, R356). -/

namespace Sys2Proof.Machine

/-- The outcome of a step (R301). -/
inductive StepOutcome where
  /-- `Advanced`, `Parked` or `UnknownOpcode`. -/
  | reported (r : Report)
  /-- `Fault(E, info)`. -/
  | faulted (f : Fault)
  deriving DecidableEq, Repr

/-- The outcome codes (R301, D24). -/
def StepOutcome.code : StepOutcome → Nat
  | .reported .advanced => 0
  | .reported .parked => 1
  | .reported (.unknownOpcode _ _) => 2
  | .faulted (.stackOverflow _ _) => 3
  | .faulted (.stackUnderflow _ _) => 4
  | .faulted (.fontWrite _ _ _) => 5

/-- An outcome that a session records for ever: a fault or an unknown opcode (R314). -/
def StepOutcome.recorded (o : StepOutcome) : Bool := decide (2 ≤ o.code)

/-- The operations of R48. -/
inductive Op where
  | reset
  | load (rom : List Byte)
  | step
  | tick
  | setKeys (k : Vector Bool 16)
  deriving DecidableEq, Repr

/-- Why the model refuses a host operation. Safe: the spec gives it no effect there. -/
inductive HostRefusal where
  /-- An operation other than Reset before the Reset (R331). Safe. -/
  | notReset
  /-- A second Reset: the state is constructed once per session (R331, R350). Safe. -/
  | resetTwice
  /-- A Load after the first Step (R355). Safe. -/
  | loadAfterStep
  deriving DecidableEq, Repr

/-- What an operation returns to the host (R49). -/
inductive Response where
  /-- Reset, Tick and SetKeys return nothing and cannot fail (R301). -/
  | done
  /-- Load's result. -/
  | loaded (r : LoadResult)
  /-- Step's outcome. -/
  | stepped (o : StepOutcome)
  /-- The operation was refused and nothing changed. -/
  | refused (r : HostRefusal)
  /-- Step met an instruction with no meaning in the model; no instruction is such. -/
  | unmodelled (r : Refusal)
  deriving DecidableEq, Repr

/-- A session after its Reset. -/
structure Run where
  /-- The core. -/
  core : State
  /-- A Step has been issued, so that no Load may follow (R355). -/
  stepped : Bool
  /-- The recorded outcomes, oldest first (R314). -/
  record : List StepOutcome
  deriving DecidableEq, Repr

/-- A session: before its Reset there is no machine state (R350). -/
inductive Session where
  | unbuilt
  | built (r : Run)
  deriving DecidableEq, Repr

/-- The session right after Reset (R350). -/
def Session.start : Session := .built { core := State.reset, stepped := false, record := [] }

/-- A step's outcome and the core after it: a fault leaves the core as it was (R305). -/
def Run.afterStep (r : Run) (o : StepOutcome) (core : State) : Run where
  core := core
  stepped := true
  record := if o.recorded then r.record ++ [o] else r.record

/-- `Step` in a session (R123, R305, R314). -/
def Run.step (r : Run) : Response × Run :=
  match Sys2Proof.Machine.step r.core with
  | .next t => (.stepped (.reported t.outcome), r.afterStep (.reported t.outcome) t)
  | .fault f => (.stepped (.faulted f), r.afterStep (.faulted f) r.core)
  | .refused e => (.unmodelled e, r)

/-- `Load` in a session (R353 to R355). -/
def Run.load (r : Run) (rom : List Byte) : Response × Run :=
  if r.stepped then (.refused .loadAfterStep, r)
  else (.loaded (r.core.load rom).1, { r with core := (r.core.load rom).2 })

/-- An operation after the Reset. -/
def Run.perform (r : Run) : Op → Response × Run
  | .reset => (.refused .resetTwice, r)
  | .load rom => r.load rom
  | .step => r.step
  | .tick => (.done, { r with core := r.core.tick })
  | .setKeys k => (.done, { r with core := r.core.setKeys k })

/-- One operation of the host. -/
def Session.perform : Session → Op → Response × Session
  | .unbuilt, .reset => (.done, Session.start)
  | .unbuilt, .load _ => (.refused .notReset, .unbuilt)
  | .unbuilt, .step => (.refused .notReset, .unbuilt)
  | .unbuilt, .tick => (.refused .notReset, .unbuilt)
  | .unbuilt, .setKeys _ => (.refused .notReset, .unbuilt)
  | .built r, op => ((r.perform op).1, .built (r.perform op).2)

/-- A run after a list of operations. -/
def Run.performAll : Run → List Op → Run
  | r, [] => r
  | r, op :: ops => Run.performAll (r.perform op).2 ops

end Sys2Proof.Machine
end

