-- ==== Sys2Proof/Safety.lean ====
section
/-! DEFINITION. What counts as a safe state and a safe run, and what it means that a step leaves a part of the state
unchanged, in the terms the statements use (spec 10_state.md section 6, 20_memory.md R78, 60_exceptions.md R314). -/

namespace Sys2Proof.Machine

/-- Each font byte reads as the font table has it (R78: "never overwritten by program execution"). -/
def FontIntact (s : State) : Prop :=
  ∀ j, j < Config.fontSize → s.mem.read (Config.fontBase + j) = Config.fontBytes.getD j 0

/-- The invariant of the machine: memory in its canonical form and the font intact. -/
def State.Inv (s : State) : Prop := s.mem.wf = true ∧ FontIntact s

/-- The same on a session. -/
def Session.Inv : Session → Prop
  | .unbuilt => True
  | .built r => r.core.Inv

/-- A faulted run: some step returned a fault (R314). -/
def Run.Faulted (r : Run) : Prop := ∃ f, StepOutcome.faulted f ∈ r.record

/-- `n` steps from `s` run with no fault. -/
def RunsUnfaulted (n : Nat) (s : State) : Prop := ∃ t, Sys2Proof.core.run n s = .next t

/-- The parts of the state (R50), the outcome port and the model's counter of draws. -/
inductive Part where
  | regs | pc | i | sp | stack | dt | st | keys | fb | mem | outcome | rndDraws
  deriving DecidableEq, Repr

/-- A part is the same in two states; memory is, when every byte reads the same. -/
def Part.Same : Part → State → State → Prop
  | .regs, s, t => ∀ z, t.readV z = s.readV z
  | .pc, s, t => t.pc = s.pc
  | .i, s, t => t.i = s.i
  | .sp, s, t => t.sp = s.sp
  | .stack, s, t => t.stack = s.stack
  | .dt, s, t => t.dt = s.dt
  | .st, s, t => t.st = s.st
  | .keys, s, t => t.keys = s.keys
  | .fb, s, t => t.fb = s.fb
  | .mem, s, t => ∀ a, t.readMem a = s.readMem a
  | .outcome, s, t => t.outcome = s.outcome
  | .rndDraws, s, t => t.rndDraws = s.rndDraws

/-- Every part but the listed ones is the same. -/
def KeepsBut (changed : List Part) (s t : State) : Prop := ∀ p, p ∉ changed → p.Same s t

/-- Every general register but the listed ones is the same. -/
def KeepsRegsBut (changed : List Reg) (s t : State) : Prop := ∀ z, z ∉ changed → t.readV z = s.readV z

/-- The byte at address `a` after a store of `n` bytes of values `val` at I in `s`: the stored one where `a` is a target,
the byte before where it is none (R71, R83). -/
def StoredAt (s : State) (n : Nat) (val : Nat → Nat) (a : Addr) (b : Byte) : Prop :=
  (∀ k, k < n → s.indexAddr k = a → b.toNat = val k) ∧ ((∀ k, k < n → s.indexAddr k ≠ a) → b = s.readMem a)

/-- The fetch in `t`, at the program counter of `s`, reads the two bytes that such a store in `s` leaves there, the first
one the high byte. -/
def FetchSees (s t : State) (n : Nat) (val : Nat → Nat) : Prop :=
  ∃ hi lo : Byte, (fetchWord t).toNat = hi.toNat * 256 + lo.toNat ∧
    StoredAt s n val (maskAddr s.pc) hi ∧ StoredAt s n val (maskAddr (s.pc + 1)) lo

/-- Sprite bit (r, c) of the n rows at I is set and lands on the screen, at column x0 + c and row y0 + r. -/
def SpriteDraws (s : State) (x0 y0 n r c : Nat) : Prop :=
  r < n ∧ c < 8 ∧ (s.readMem (s.indexAddr r)).getLsbD (7 - c) = true ∧ x0 + c < 64 ∧ y0 + r < 32

end Sys2Proof.Machine
end

