-- ==== Sys2Proof/Certificates/Slice0/Obligations.lean ====
section
/-! DEFINITION. The statements for the provers, each from the numbered rules of spec/. `s.pc` in a statement about `exec`
is the instruction's address plus 2 (R124). -/

open Sys2Proof Sys2Proof.Machine

/-! ## Encoding (30_encoding.md) -/

/-- One word or more of each of the sixteen leading nibbles, written out from R110 to R114 and the spec's vectors, decodes
to what it stands for. The opcode values are the spec's own, from general knowledge (D3, D4; log entry 7). -/
def Obligations.TableWordsDecode : Prop :=
  decodeWord 0x00E0 = .cls 0 ∧ decodeWord 0x0FEE = .ret 0xF ∧ decodeWord 0x1ABC = .jp 0xABC ∧
  decodeWord 0x2300 = .call 0x300 ∧ decodeWord 0x3342 = .seImm 3 0x42 ∧ decodeWord 0x4342 = .sneImm 3 0x42 ∧
  decodeWord 0x512F = .seReg 1 2 0xF ∧ decodeWord 0x65A7 = .ldImm 5 0xA7 ∧ decodeWord 0x7102 = .addImm 1 0x02 ∧
  decodeWord 0x9120 = .sneReg 1 2 0 ∧ decodeWord 0xBFFF = .jpV0 0xFFF ∧ decodeWord 0x8124 = .addReg 1 2 ∧ decodeWord 0x840E = .shl 4 0 ∧
  decodeWord 0xA300 = .ldI 0x300 ∧ decodeWord 0xC00F = .rnd 0 0x0F ∧ decodeWord 0xD012 = .drw 0 1 2 ∧
  decodeWord 0xE29E = .skp 2 ∧ decodeWord 0xF533 = .ldB 5 ∧ decodeWord 0xF165 = .loadRegs 1 ∧
  decodeWord 0x0123 = .unknown 0x0123 ∧ decodeWord 0xF066 = .unknown 0xF066

/-- Decoding an encoded well-formed instruction gives it back, for every value of every operand, from the word and from
the bytes (R103, R106, R119). -/
def Obligations.DecodeOfEncode : Prop :=
  ∀ i : Instr, i.wf = true →
    decodeWord (encode i) = i ∧ ∀ rest, decode (encodeBytes i ++ rest) = .ok (i, rest)

/-- Every word decodes to a well-formed instruction that encodes to the same word, and the decoder answers `unknown`
exactly on the unknown space of R116. That a word with ignored bits set is encoded back as it was rests on the model's
keeping those bits in the instruction (DESIGN CHOICE, log entry 8): the assembled word of a form has them 0 (R121). -/
def Obligations.EncodeOfDecode : Prop :=
  ∀ w : Word, (decodeWord w).wf = true ∧ encode (decodeWord w) = w ∧
    (decodeWord w = .unknown w ↔ unknownWord w = true)

/-- The decoder follows the opcode table: a word matches the mask and match of a row exactly when it decodes to that
row's instruction, so no two rows overlap, and it matches no row exactly when it is unknown (R107 to R116, R119). -/
def Obligations.DecodeFollowsTable : Prop :=
  ∀ w : Word,
    (∀ (i : Instr) (r : Word × Word), i.row = some r → (w &&& r.1 = r.2 ↔ (decodeWord w).row = some r)) ∧
    ((∀ (i : Instr) (r : Word × Word), i.row = some r → w &&& r.1 ≠ r.2) ↔ unknownWord w = true)

/-- The size of the unknown space, family by family: for each x, 254 low bytes of family 0, 254 of family E and 247 of
family F; for each x and y, 7 low nibbles of family 8; no word of another family (R116, derived there: 4064 + 1792 + 4064 +
3952 = 13872 words). -/
def Obligations.UnknownSpaceCounts : Prop :=
  (∀ x : Nibble,
    ((List.range 256).countP fun k => unknownWord (packB 0x0 x (BitVec.ofNat 8 k))) = 254 ∧
    ((List.range 256).countP fun k => unknownWord (packB 0xE x (BitVec.ofNat 8 k))) = 254 ∧
    ((List.range 256).countP fun k => unknownWord (packB 0xF x (BitVec.ofNat 8 k))) = 247) ∧
  (∀ x y : Nibble, ((List.range 16).countP fun k => unknownWord (packC 0x8 x y (BitVec.ofNat 4 k))) = 7) ∧
  (∀ w : Word, unknownWord w = true → opField w = 0x0 ∨ opField w = 0x8 ∨ opField w = 0xE ∨ opField w = 0xF)

/-- An instruction runs as its canonical form with every ignored bit clear: one answers a next state exactly when the
other does, and it is the same one, and one faults exactly when the other does (R115, R121; the ignored bits are the
spec's decision D4). -/
def Obligations.IgnoredBitsHaveNoEffect : Prop :=
  ∀ (i : Instr) (s : State),
    (∀ t, exec i s = .next t ↔ exec i.canonical s = .next t) ∧
    ((∃ f, exec i s = .fault f) ↔ ∃ f, exec i.canonical s = .fault f)

/-! ## The step (30_encoding.md section 4) -/

/-- The fetch reads two masked bytes, the byte at the lower address being the high one (R75, R77, R101; the byte order is
the spec's decision D1, the mask on the fetch D7). -/
def Obligations.FetchReadsTwoMaskedBytes : Prop :=
  ∀ s : State, (maskAddr s.pc).toNat = s.pc.toNat % 4096 ∧ (maskAddr (s.pc + 1)).toNat = (s.pc.toNat + 1) % 4096 ∧
    (fetchWord s).toNat = (s.readMem (maskAddr s.pc)).toNat * 256 + (s.readMem (maskAddr (s.pc + 1))).toNat

/-- When the two bytes at the program counter decode to a well-formed instruction, a step is that instruction run in the
state whose only change is the fetch advance of 2 (R101, R123, R124). -/
def Obligations.StepRunsDecodedInstruction : Prop :=
  ∀ (s : State) (i : Instr), i.wf = true →
    decode [s.readMem (maskAddr s.pc), s.readMem (maskAddr (s.pc + 1))] = .ok (i, []) →
    step s = exec i s.advancePc ∧ s.advancePc.pc = s.pc + 2 ∧ KeepsBut [.pc] s s.advancePc

/-- A step always answers with a next state or one of the spec's faults: no state and no word is refused (R119, R128). -/
def Obligations.StepNeverRefuses : Prop :=
  ∀ s : State, (∃ t, step s = .next t) ∨ ∃ f, step s = .fault f

/-- CALL with SP = 16 is the only cause of a stack overflow and RET with SP = 0 the only cause of a stack underflow; each
fault holds the fetched word and its address (R306, R307). -/
def Obligations.StackFaultCauses : Prop :=
  ∀ s : State,
    (∀ w a, step s = .fault (.stackOverflow w a) ↔
      (∃ nnn, fetchInstr s = .call nnn) ∧ s.sp = 16 ∧ w = fetchWord s ∧ a = s.pc) ∧
    (∀ w a, step s = .fault (.stackUnderflow w a) ↔
      (∃ ign, fetchInstr s = .ret ign) ∧ s.sp = 0 ∧ w = fetchWord s ∧ a = s.pc)

/-- Only LD B,Vx and LD [I],Vx raise a font-write fault; it holds the fetched word, its address and a masked address in
0x050 to 0x09F (R308, the spec's decision D12). -/
def Obligations.FontFaultCauses : Prop :=
  ∀ (s : State) (w p : Word) (a : Addr), step s = .fault (.fontWrite w p a) →
    (∃ x, fetchInstr s = .ldB x ∨ fetchInstr s = .storeRegs x) ∧ w = fetchWord s ∧ p = s.pc ∧
    0x050 ≤ a.toNat ∧ a.toNat ≤ 0x09F

/-- The outcome port after a completed step: UnknownOpcode with the word and its address for an unknown word, Parked for
LD Vx,K with no key pressed, and Advanced for every other instruction (R301, R302, R304, R270; the latch is the model's,
log entry 2). -/
def Obligations.StepOutcomes : Prop :=
  ∀ s t : State, step s = .next t →
    (t.outcome = .parked ↔ (∃ x, fetchInstr s = .ldVxK x) ∧ ∀ k, s.key k = false) ∧
    (∀ w a, t.outcome = .unknownOpcode w a ↔ fetchInstr s = .unknown w ∧ a = s.pc) ∧
    (t.outcome = .advanced ↔
      (∀ w, fetchInstr s ≠ .unknown w) ∧ ¬((∃ x, fetchInstr s = .ldVxK x) ∧ ∀ k, s.key k = false))

/-! ## Reset and the invariant (70_reset_and_hazards.md, 20_memory.md) -/

/-- What Reset leaves (R350; the values of I, SP, the stack, the framebuffer and the keypad are the spec's decision D18,
the font bytes its general knowledge, D27). -/
def Obligations.ResetState : Prop :=
  (∀ x, State.reset.readV x = 0) ∧ State.reset.dt = 0 ∧ State.reset.st = 0 ∧ State.reset.soundActive = false ∧
  State.reset.pc = 0x0200 ∧ State.reset.i = 0 ∧ State.reset.sp = 0 ∧
  (∀ (j : Nat) (h : j < 16), State.reset.stack[j] = 0) ∧ (∀ k, State.reset.key k = false) ∧
  (∀ x y, pixelAt State.reset.fb x y = false) ∧
  (∀ a : Addr, State.reset.readMem a =
    if 0x050 ≤ a.toNat ∧ a.toNat ≤ 0x09F then Config.fontBytes.getD (a.toNat - 0x050) 0 else 0)

/-- Reset meets the invariant: memory canonical and the font intact. -/
def Obligations.ResetMeetsInvariant : Prop := State.reset.Inv

/-- Every step keeps the invariant: memory keeps its canonical form and the font is never overwritten by a program (R78,
whose check is the spec's decision D12). -/
def Obligations.StepKeepsInvariant : Prop := ∀ s t : State, s.Inv → step s = .next t → t.Inv

/-- Every operation of the host keeps the invariant: Reset, Load, Step, Tick and SetKeys (R48, R78, R353). -/
def Obligations.HostOperationsKeepInvariant : Prop := ∀ (q : Session) (op : Op), q.Inv → (q.perform op).2.Inv

/-- With no ROM loaded, the first step fetches the zero word, reports it unknown and advances pc by 2 (R357, D6). -/
def Obligations.EmptyMachineReportsUnknown : Prop :=
  step State.reset = .next ((State.reset.writePc 0x0202).writeOutcome (.unknownOpcode 0x0000 0x0200))

/-! ## Control transfer and skips (40_flow.md) -/

/-- RET (R141). That an underflow leaves the whole state unchanged is the spec's decision D11 (log entry 3). -/
def Obligations.ReturnPopsTheStack : Prop :=
  (∀ (s : State) (ign : Nibble) (h : 0 < s.sp.val),
    ∃ t, exec (.ret ign) s = .next t ∧ t.sp.val = s.sp.val - 1 ∧ t.pc = s.stack[s.sp.val - 1]'(by omega) ∧
      t.outcome = .advanced ∧ KeepsBut [.pc, .sp, .outcome] s t) ∧
  (∀ (s : State) (ign : Nibble), s.sp.val = 0 →
    exec (.ret ign) s = .fault (.stackUnderflow (encode (.ret ign)) (s.pc - 2))) ∧
  (∀ (r : Run) (ign : Nibble), fetchInstr r.core = .ret ign → r.core.sp.val = 0 → r.step.2.core = r.core)

/-- CALL and then RET, with the stack as CALL left it: pc is back at the address after the CALL and SP at its value before
(R141, R143; the worked example W5). -/
def Obligations.CallThenReturnRestoresPc : Prop :=
  ∀ (s t u : State) (nnn : Addr) (ign : Nibble), exec (.call nnn) s = .next t → u.sp = t.sp → u.stack = t.stack →
    ∃ v, exec (.ret ign) u = .next v ∧ v.pc = s.pc ∧ v.sp = s.sp

/-- JP addr (R142). -/
def Obligations.JumpGoesToAddress : Prop :=
  ∀ (s : State) (nnn : Addr), ∃ t, exec (.jp nnn) s = .next t ∧ t.pc.toNat = nnn.toNat ∧ t.outcome = .advanced ∧
    KeepsBut [.pc, .outcome] s t

/-- CALL addr (R143). That an overflow leaves the whole state unchanged is the spec's decision D11 (log entry 3). -/
def Obligations.CallPushesReturnAddress : Prop :=
  (∀ (s : State) (nnn : Addr) (h : s.sp.val < 16),
    ∃ t, exec (.call nnn) s = .next t ∧ t.sp.val = s.sp.val + 1 ∧ t.pc.toNat = nnn.toNat ∧
      t.stack[s.sp.val] = s.pc ∧ (∀ (j : Nat) (hj : j < 16), j ≠ s.sp.val → t.stack[j] = s.stack[j]) ∧
      t.outcome = .advanced ∧ KeepsBut [.pc, .sp, .stack, .outcome] s t) ∧
  (∀ (s : State) (nnn : Addr), s.sp.val = 16 →
    exec (.call nnn) s = .fault (.stackOverflow (encode (.call nnn)) (s.pc - 2))) ∧
  (∀ (r : Run) (nnn : Addr), fetchInstr r.core = .call nnn → r.core.sp.val = 16 → r.step.2.core = r.core)

/-- SE Vx,kk and SNE Vx,kk (R144, R145): a taken skip adds 2 modulo 2^16 (R140). -/
def Obligations.SkipsOnImmediate : Prop :=
  ∀ (s : State) (x : Reg) (kk : Byte),
    (∃ t, exec (.seImm x kk) s = .next t ∧ t.pc = (if s.readV x = kk then s.pc + 2 else s.pc) ∧
      t.outcome = .advanced ∧ KeepsBut [.pc, .outcome] s t) ∧
    (∃ t, exec (.sneImm x kk) s = .next t ∧ t.pc = (if s.readV x = kk then s.pc else s.pc + 2) ∧
      t.outcome = .advanced ∧ KeepsBut [.pc, .outcome] s t)

/-- SE Vx,Vy and SNE Vx,Vy, whatever the ignored bits (R146, R147). -/
def Obligations.SkipsOnRegisters : Prop :=
  ∀ (s : State) (x y : Reg) (ign : Nibble),
    (∃ t, exec (.seReg x y ign) s = .next t ∧ t.pc = (if s.readV x = s.readV y then s.pc + 2 else s.pc) ∧
      t.outcome = .advanced ∧ KeepsBut [.pc, .outcome] s t) ∧
    (∃ t, exec (.sneReg x y ign) s = .next t ∧ t.pc = (if s.readV x = s.readV y then s.pc else s.pc + 2) ∧
      t.outcome = .advanced ∧ KeepsBut [.pc, .outcome] s t)

/-- JP V0,addr: the sum is kept whole in pc (R148; unmasked by the spec's decision D8). -/
def Obligations.JumpWithOffsetAddsV0 : Prop :=
  ∀ (s : State) (nnn : Addr), ∃ t, exec (.jpV0 nnn) s = .next t ∧ t.pc.toNat = nnn.toNat + (s.readV 0).toNat ∧
    t.outcome = .advanced ∧ KeepsBut [.pc, .outcome] s t

/-! ## Register loads and the ALU (41_alu.md) -/

/-- LD Vx,kk, LD Vx,Vy and LD Vx,DT write their destination and nothing else, VF too when x = 15 (R172, R176, R264). -/
def Obligations.LoadsWriteTheDestination : Prop :=
  ∀ (s : State) (x y : Reg) (kk : Byte),
    (∃ t, exec (.ldImm x kk) s = .next t ∧ t.readV x = kk ∧ t.outcome = .advanced ∧
      KeepsRegsBut [x] s t ∧ KeepsBut [.regs, .outcome] s t) ∧
    (∃ t, exec (.ldReg x y) s = .next t ∧ t.readV x = s.readV y ∧ t.outcome = .advanced ∧
      KeepsRegsBut [x] s t ∧ KeepsBut [.regs, .outcome] s t) ∧
    (∃ t, exec (.ldVxDt x) s = .next t ∧ t.readV x = s.dt ∧ t.outcome = .advanced ∧
      KeepsRegsBut [x] s t ∧ KeepsBut [.regs, .outcome] s t)

/-- ADD Vx,kk wraps modulo 256 and writes no flag (R174). -/
def Obligations.AddImmediateWrapsWithoutFlag : Prop :=
  ∀ (s : State) (x : Reg) (kk : Byte),
    ∃ t, exec (.addImm x kk) s = .next t ∧ (t.readV x).toNat = ((s.readV x).toNat + kk.toNat) % 256 ∧
      t.outcome = .advanced ∧ KeepsRegsBut [x] s t ∧ KeepsBut [.regs, .outcome] s t

/-- OR, AND and XOR combine bit by bit and write no flag (R178, R179, R180). -/
def Obligations.BitwiseOpsWriteNoFlag : Prop :=
  ∀ (s : State) (x y : Reg),
    (∃ t, exec (.orReg x y) s = .next t ∧
      (∀ k, (t.readV x).getLsbD k = ((s.readV x).getLsbD k || (s.readV y).getLsbD k)) ∧
      t.outcome = .advanced ∧ KeepsRegsBut [x] s t ∧ KeepsBut [.regs, .outcome] s t) ∧
    (∃ t, exec (.andReg x y) s = .next t ∧
      (∀ k, (t.readV x).getLsbD k = ((s.readV x).getLsbD k && (s.readV y).getLsbD k)) ∧
      t.outcome = .advanced ∧ KeepsRegsBut [x] s t ∧ KeepsBut [.regs, .outcome] s t) ∧
    (∃ t, exec (.xorReg x y) s = .next t ∧
      (∀ k, (t.readV x).getLsbD k = ((s.readV x).getLsbD k != (s.readV y).getLsbD k)) ∧
      t.outcome = .advanced ∧ KeepsRegsBut [x] s t ∧ KeepsBut [.regs, .outcome] s t)

/-- ADD Vx,Vy: Vx is the sum modulo 256 and VF its carry; with x = 15 VF holds the sum (R182; that the result is written
last is the spec's decision D10, that the operands are read first D9). -/
def Obligations.AddRegisterSetsCarry : Prop :=
  ∀ (s : State) (x y : Reg),
    ∃ t, exec (.addReg x y) s = .next t ∧
      (t.readV x).toNat = ((s.readV x).toNat + (s.readV y).toNat) % 256 ∧
      (x ≠ 15 → t.readV 15 = if (s.readV x).toNat + (s.readV y).toNat > 255 then 1 else 0) ∧
      t.outcome = .advanced ∧ KeepsRegsBut [x, 15] s t ∧ KeepsBut [.regs, .outcome] s t

/-- SUB and SUBN: the difference modulo 256, and VF set exactly when the first operand is strictly greater; with x = 15 VF
holds the difference (R184, R187; the strict test is the spec's decision D35, the order of the writes D10). -/
def Obligations.SubtractionsSetNoBorrow : Prop :=
  ∀ (s : State) (x y : Reg),
    (∃ t, exec (.sub x y) s = .next t ∧
      (t.readV x).toNat = ((s.readV x).toNat + 256 - (s.readV y).toNat) % 256 ∧
      (x ≠ 15 → t.readV 15 = if (s.readV x).toNat > (s.readV y).toNat then 1 else 0) ∧
      t.outcome = .advanced ∧ KeepsRegsBut [x, 15] s t ∧ KeepsBut [.regs, .outcome] s t) ∧
    (∃ t, exec (.subn x y) s = .next t ∧
      (t.readV x).toNat = ((s.readV y).toNat + 256 - (s.readV x).toNat) % 256 ∧
      (x ≠ 15 → t.readV 15 = if (s.readV y).toNat > (s.readV x).toNat then 1 else 0) ∧
      t.outcome = .advanced ∧ KeepsRegsBut [x, 15] s t ∧ KeepsBut [.regs, .outcome] s t)

/-- SHR and SHL of Vx, `y` ignored: the shifted byte, and VF the bit shifted out; with x = 15 VF holds the shifted byte
(R186, R188 at the normative SHIFT_USES_VY = false, log entry 5; the order of the writes is the spec's decision D10). -/
def Obligations.ShiftsMoveVxByOne : Prop :=
  ∀ (s : State) (x y : Reg),
    (∃ t, exec (.shr x y) s = .next t ∧ (t.readV x).toNat = (s.readV x).toNat / 2 ∧
      (x ≠ 15 → (t.readV 15).toNat = (s.readV x).toNat % 2) ∧
      t.outcome = .advanced ∧ KeepsRegsBut [x, 15] s t ∧ KeepsBut [.regs, .outcome] s t) ∧
    (∃ t, exec (.shl x y) s = .next t ∧ (t.readV x).toNat = (s.readV x).toNat * 2 % 256 ∧
      (x ≠ 15 → (t.readV 15).toNat = (s.readV x).toNat / 128) ∧
      t.outcome = .advanced ∧ KeepsRegsBut [x, 15] s t ∧ KeepsBut [.regs, .outcome] s t)

/-- The compatibility mode SHIFT_USES_VY = true, and the normative mode, of the shared shift operations: the source is Vy
in the one and Vx in the other, and both complete (R14, R186, R188, R302; the mode `true` is the spec's decision D26). -/
def Obligations.ShiftModesChooseTheSource : Prop :=
  ∀ (s : State) (usesVy : Bool) (x y : Reg),
    (∃ t, shiftRight usesVy x y s = .next t ∧
      (t.readV x).toNat = (if usesVy then s.readV y else s.readV x).toNat / 2 ∧
      (x ≠ 15 → (t.readV 15).toNat = (if usesVy then s.readV y else s.readV x).toNat % 2) ∧
      t.outcome = .advanced ∧ KeepsRegsBut [x, 15] s t ∧ KeepsBut [.regs, .outcome] s t) ∧
    (∃ t, shiftLeft usesVy x y s = .next t ∧
      (t.readV x).toNat = (if usesVy then s.readV y else s.readV x).toNat * 2 % 256 ∧
      (x ≠ 15 → (t.readV 15).toNat = (if usesVy then s.readV y else s.readV x).toNat / 128) ∧
      t.outcome = .advanced ∧ KeepsRegsBut [x, 15] s t ∧ KeepsBut [.regs, .outcome] s t)

/-- RND Vx,kk: the drawn byte masked by kk, so that no bit outside kk is set, whatever the free value (log entry 1); one
byte is drawn for every kk (R190, the open random source is D17). -/
def Obligations.RandomByteIsMasked : Prop :=
  ∀ (s : State) (x : Reg) (kk : Byte),
    ∃ t, exec (.rnd x kk) s = .next t ∧ t.readV x = Config.randByte s.rndDraws &&& kk ∧ t.readV x &&& ~~~kk = 0 ∧
      t.rndDraws = s.rndDraws + 1 ∧ t.outcome = .advanced ∧ KeepsRegsBut [x] s t ∧
      KeepsBut [.regs, .rndDraws, .outcome] s t

/-! ## Index register and memory (42_index_memory.md) -/

/-- LD I,addr and ADD I,Vx: I is nnn, and I + Vx modulo 2^16 with no flag and no mask (R201, R202). -/
def Obligations.IndexLoadAndAdd : Prop :=
  ∀ (s : State) (nnn : Addr) (x : Reg),
    (∃ t, exec (.ldI nnn) s = .next t ∧ t.i.toNat = nnn.toNat ∧ t.outcome = .advanced ∧
      KeepsBut [.i, .outcome] s t) ∧
    (∃ t, exec (.addI x) s = .next t ∧ t.i.toNat = (s.i.toNat + (s.readV x).toNat) % 65536 ∧ t.outcome = .advanced ∧
      KeepsBut [.i, .outcome] s t)

/-- LD F,Vx: I is 0x050 + 5 * Vx for the whole byte (R203, the spec's decision D15). -/
def Obligations.GlyphAddressFromWholeByte : Prop :=
  ∀ (s : State) (x : Reg), ∃ t, exec (.ldF x) s = .next t ∧ t.i.toNat = 0x050 + 5 * (s.readV x).toNat ∧
    t.outcome = .advanced ∧ KeepsBut [.i, .outcome] s t

/-- LD B,Vx where no target is in the font: the three digits at I, I + 1 and I + 2 masked, and no other byte changes
(R204, R207; the font check is the spec's decision D12, I unchanged D16). -/
def Obligations.BcdStoresThreeDigits : Prop :=
  ∀ (s : State) (x : Reg), (∀ k, k < 3 → inFont (s.indexAddr k) = false) →
    ∃ t, exec (.ldB x) s = .next t ∧
      (∀ k, (s.indexAddr k).toNat = (s.i.toNat + k) % 4096) ∧
      (t.readMem (s.indexAddr 0)).toNat = (s.readV x).toNat / 100 ∧
      (t.readMem (s.indexAddr 1)).toNat = (s.readV x).toNat / 10 % 10 ∧
      (t.readMem (s.indexAddr 2)).toNat = (s.readV x).toNat % 10 ∧
      (∀ a, (∀ k, k < 3 → a ≠ s.indexAddr k) → t.readMem a = s.readMem a) ∧
      t.outcome = .advanced ∧ KeepsBut [.mem, .outcome] s t

/-- LD [I],Vx where no target is in the font: V0 to Vx at I to I + x masked, no other byte changes, I unchanged (R205,
R207; decisions D12 and D16 of the spec). -/
def Obligations.StoreRegistersWritesMemory : Prop :=
  ∀ (s : State) (x : Reg), (∀ k, k ≤ x.toNat → inFont (s.indexAddr k) = false) →
    ∃ t, exec (.storeRegs x) s = .next t ∧
      (∀ k, (s.indexAddr k).toNat = (s.i.toNat + k) % 4096) ∧
      (∀ z : Reg, z.toNat ≤ x.toNat → t.readMem (s.indexAddr z.toNat) = s.readV z) ∧
      (∀ a, (∀ k, k ≤ x.toNat → a ≠ s.indexAddr k) → t.readMem a = s.readMem a) ∧
      t.outcome = .advanced ∧ KeepsBut [.mem, .outcome] s t

/-- A store with a target in the font faults with the masked address of the lowest such offset, and the core after that
Step is the core before it (R207, R305, R308; the spec's decisions D11 and D12). -/
def Obligations.StoreIntoFontFaults : Prop :=
  (∀ (s : State) (x : Reg) (k : Nat), inFont (s.indexAddr k) = true →
    (∀ j, j < k → inFont (s.indexAddr j) = false) →
    (k < 3 → exec (.ldB x) s = .fault (.fontWrite (encode (.ldB x)) (s.pc - 2) (s.indexAddr k))) ∧
    (k ≤ x.toNat → exec (.storeRegs x) s = .fault (.fontWrite (encode (.storeRegs x)) (s.pc - 2) (s.indexAddr k)))) ∧
  (∀ (r : Run) (x : Reg) (k : Nat), inFont (r.core.indexAddr k) = true →
    (fetchInstr r.core = .ldB x → k < 3 → r.step.2.core = r.core) ∧
    (fetchInstr r.core = .storeRegs x → k ≤ x.toNat → r.step.2.core = r.core)) ∧
  (∀ a : Addr, inFont a = true ↔ 0x050 ≤ a.toNat ∧ a.toNat ≤ 0x09F)

/-- LD Vx,[I]: V0 to Vx are the bytes at I to I + x masked, the other registers and I keep their values (R206; I unchanged
is the spec's decision D16). -/
def Obligations.LoadRegistersReadsMemory : Prop :=
  ∀ (s : State) (x : Reg),
    ∃ t, exec (.loadRegs x) s = .next t ∧
      (∀ k, (s.indexAddr k).toNat = (s.i.toNat + k) % 4096) ∧
      (∀ z : Reg, z.toNat ≤ x.toNat → t.readV z = s.readMem (s.indexAddr z.toNat)) ∧
      (∀ z : Reg, x.toNat < z.toNat → t.readV z = s.readV z) ∧
      t.outcome = .advanced ∧ KeepsBut [.regs, .outcome] s t

/-- A store is seen by the next fetch, whichever of the two bytes of the next instruction it writes: after LD [I],Vx and
after LD B,Vx with no target in the font, the fetch reads a stored byte at each of its addresses that is a target, and
the byte before at each that is not (R83, the spec's decision D23; the byte order D1, the font condition D12). -/
def Obligations.StoreIsSeenByNextFetch : Prop :=
  ∀ (s : State) (x : Reg),
    ((∀ k, k ≤ x.toNat → inFont (s.indexAddr k) = false) →
      ∃ t, exec (.storeRegs x) s = .next t ∧ t.pc = s.pc ∧
        FetchSees s t (x.toNat + 1) fun k => (s.readV (BitVec.ofNat 4 k)).toNat) ∧
    ((∀ k, k < 3 → inFont (s.indexAddr k) = false) →
      ∃ t, exec (.ldB x) s = .next t ∧ t.pc = s.pc ∧
        FetchSees s t 3 fun k =>
          if k = 0 then (s.readV x).toNat / 100 else if k = 1 then (s.readV x).toNat / 10 % 10 else (s.readV x).toNat % 10)

/-! ## Framebuffer (43_display.md) -/

/-- CLS turns every pixel off and changes nothing else (R231). -/
def Obligations.ClearTurnsEveryPixelOff : Prop :=
  ∀ (s : State) (ign : Nibble), ∃ t, exec (.cls ign) s = .next t ∧
    (∀ x y, x < 64 → y < 32 → pixelAt t.fb x y = false) ∧ t.outcome = .advanced ∧ KeepsBut [.fb, .outcome] s t

/-- DRW: the anchor is Vx mod 64, Vy mod 32; each set sprite bit on the screen toggles its pixel, no other pixel changes,
and VF is 1 when some such pixel was on and 0 when none was (R232 to R235; the operands read first, clipping and the bit
order are the spec's decisions D9, D13, D36). -/
def Obligations.DrawTogglesSpritePixels : Prop :=
  ∀ (s : State) (x y : Reg) (n : Nibble),
    ∃ t, exec (.drw x y n) s = .next t ∧
      (∀ px py, px < 64 → py < 32 →
        ((pixelAt t.fb px py = true) ↔
          Xor (pixelAt s.fb px py = true)
            (∃ r c, SpriteDraws s ((s.readV x).toNat % 64) ((s.readV y).toNat % 32) n.toNat r c ∧
              px = (s.readV x).toNat % 64 + c ∧ py = (s.readV y).toNat % 32 + r))) ∧
      ((∃ r c, SpriteDraws s ((s.readV x).toNat % 64) ((s.readV y).toNat % 32) n.toNat r c ∧
          pixelAt s.fb ((s.readV x).toNat % 64 + c) ((s.readV y).toNat % 32 + r) = true) → t.readV 15 = 1) ∧
      ((∀ r c, SpriteDraws s ((s.readV x).toNat % 64) ((s.readV y).toNat % 32) n.toNat r c →
          pixelAt s.fb ((s.readV x).toNat % 64 + c) ((s.readV y).toNat % 32 + r) = false) → t.readV 15 = 0) ∧
      t.outcome = .advanced ∧ KeepsRegsBut [15] s t ∧ KeepsBut [.regs, .fb, .outcome] s t

/-- Drawing the same sprite twice at the same position gives every pixel back. The two draws may name different coordinate
registers, so that the position can be held apart from VF. The second draw leaves 1 in VF when some sprite bit drawn on
the screen lands on a pixel that was off before the first draw, and 0 when there is no such bit (R232). R235 gives that 1
to every sprite with a set bit on the screen; by R232 a bit on a pixel that was on collides in the first draw only, and
the model follows R232 (log entry 21). -/
def Obligations.DrawingTwiceRestoresPixels : Prop :=
  ∀ (s t u : State) (x y x' y' : Reg) (n : Nibble), exec (.drw x y n) s = .next t →
    (t.readV x').toNat % 64 = (s.readV x).toNat % 64 → (t.readV y').toNat % 32 = (s.readV y).toNat % 32 →
    exec (.drw x' y' n) t = .next u →
    (∀ px py, px < 64 → py < 32 → pixelAt u.fb px py = pixelAt s.fb px py) ∧
    ((∃ r c, SpriteDraws s ((s.readV x).toNat % 64) ((s.readV y).toNat % 32) n.toNat r c ∧
        pixelAt s.fb ((s.readV x).toNat % 64 + c) ((s.readV y).toNat % 32 + r) = false) → u.readV 15 = 1) ∧
    ((∀ r c, SpriteDraws s ((s.readV x).toNat % 64) ((s.readV y).toNat % 32) n.toNat r c →
        pixelAt s.fb ((s.readV x).toNat % 64 + c) ((s.readV y).toNat % 32 + r) = true) → u.readV 15 = 0)

/-! ## Keypad and timers (44_timers_keys.md) -/

/-- SKP and SKNP test the key of Vx's low four bits (R261, R262; the masking of R260 is the spec's decision D14). -/
def Obligations.SkipsOnKeys : Prop :=
  ∀ (s : State) (x : Reg) (k : Nibble), k.toNat = (s.readV x).toNat % 16 →
    (∃ t, exec (.skp x) s = .next t ∧ t.pc = (if s.key k = true then s.pc + 2 else s.pc) ∧
      t.outcome = .advanced ∧ KeepsBut [.pc, .outcome] s t) ∧
    (∃ t, exec (.sknp x) s = .next t ∧ t.pc = (if s.key k = true then s.pc else s.pc + 2) ∧
      t.outcome = .advanced ∧ KeepsBut [.pc, .outcome] s t)

/-- LD Vx,K: with a key pressed, the lowest pressed key's number goes to Vx; with none, pc goes back by 2 modulo 2^16 and
the outcome is Parked (R266). -/
def Obligations.KeyWaitTakesLowestKeyOrParks : Prop :=
  (∀ (s : State) (x : Reg) (k : Nibble), s.key k = true → (∀ j : Nibble, j.toNat < k.toNat → s.key j = false) →
    ∃ t, exec (.ldVxK x) s = .next t ∧ (t.readV x).toNat = k.toNat ∧ t.outcome = .advanced ∧
      KeepsRegsBut [x] s t ∧ KeepsBut [.regs, .outcome] s t) ∧
  (∀ (s : State) (x : Reg), (∀ k, s.key k = false) →
    ∃ t, exec (.ldVxK x) s = .next t ∧ t.pc = s.pc - 2 ∧ t.outcome = .parked ∧ KeepsBut [.pc, .outcome] s t)

/-- A parked step changes nothing but the outcome port, and while no key is pressed the next step parks again (R270, R266;
the port is the model's latch, log entry 2). -/
def Obligations.ParkedStepChangesNothing : Prop :=
  ∀ (s : State) (x : Reg), fetchInstr s = .ldVxK x → (∀ k, s.key k = false) →
    step s = .next (s.writeOutcome .parked) ∧ step (s.writeOutcome .parked) = .next (s.writeOutcome .parked)

/-- LD DT,Vx and LD ST,Vx; `sound_active` follows ST at once (R272, R273). -/
def Obligations.TimersLoadFromRegister : Prop :=
  ∀ (s : State) (x : Reg),
    (∃ t, exec (.ldDtVx x) s = .next t ∧ t.dt = s.readV x ∧ t.outcome = .advanced ∧ KeepsBut [.dt, .outcome] s t) ∧
    (∃ t, exec (.ldStVx x) s = .next t ∧ t.st = s.readV x ∧ (t.soundActive = true ↔ s.readV x ≠ 0) ∧
      t.outcome = .advanced ∧ KeepsBut [.st, .outcome] s t)

/-! ## Unknown words (60_exceptions.md section 1) -/

/-- An unknown word is a no-op with a report: a step on it advances pc by 2, reports the word and its address, and changes
nothing else (R304, the spec's decision D6). -/
def Obligations.UnknownWordIsReportedNoOp : Prop :=
  (∀ (s : State) (w : Word), ∃ t, exec (.unknown w) s = .next t ∧ t.outcome = .unknownOpcode w (s.pc - 2) ∧
    KeepsBut [.outcome] s t) ∧
  (∀ s : State, unknownWord (fetchWord s) = true →
    step s = .next ((s.writePc (s.pc + 2)).writeOutcome (.unknownOpcode (fetchWord s) s.pc)))

/-! ## Rules about every instruction (10_state.md) -/

/-- VF changes only by a flag writer (ADD Vx,Vy, SUB, SHR, SUBN, SHL, DRW) or by an instruction that names register 15 as
its destination (R31, R32; writes to VF as a destination are the spec's decision D32). -/
def Obligations.FlagRegisterWriters : Prop :=
  ∀ (i : Instr) (s t : State), exec i s = .next t → t.readV 15 ≠ s.readV 15 →
    (∃ x y, i = .addReg x y ∨ i = .sub x y ∨ i = .shr x y ∨ i = .subn x y ∨ i = .shl x y) ∨
    (∃ x y n, i = .drw x y n) ∨
    (∃ kk, i = .ldImm 15 kk ∨ i = .addImm 15 kk ∨ i = .rnd 15 kk) ∨
    (∃ y, i = .ldReg 15 y ∨ i = .orReg 15 y ∨ i = .andReg 15 y ∨ i = .xorReg 15 y) ∨
    i = .ldVxDt 15 ∨ i = .ldVxK 15 ∨ i = .loadRegs 15

/-- Which instructions can change I, SP, DT, ST, the pixels and memory, and that none changes the keypad: the written-by
column of the access matrix (R50, derived there from the instruction rules; R41). A stack slot changes only by CALL,
because RET does not clear the slot it reads (R37, R141). The counter of draws is the model's own field, no row of the
matrix (DESIGN CHOICE, log entry 1); each RND draws one byte (R46, R190). -/
def Obligations.EachPartHasItsWriters : Prop :=
  ∀ (i : Instr) (s t : State), exec i s = .next t →
    (¬Part.i.Same s t → ∃ nnn x, i = .ldI nnn ∨ i = .addI x ∨ i = .ldF x) ∧
    (¬Part.sp.Same s t → ∃ nnn ign, i = .call nnn ∨ i = .ret ign) ∧
    (¬Part.stack.Same s t → ∃ nnn, i = .call nnn) ∧
    (¬Part.dt.Same s t → ∃ x, i = .ldDtVx x) ∧
    (¬Part.st.Same s t → ∃ x, i = .ldStVx x) ∧
    (¬Part.fb.Same s t → ∃ x y n, i = .cls n ∨ i = .drw x y n) ∧
    (¬Part.mem.Same s t → ∃ x, i = .ldB x ∨ i = .storeRegs x) ∧
    (¬Part.rndDraws.Same s t → ∃ x kk, i = .rnd x kk) ∧
    Part.keys.Same s t

/-- No instruction reads the sound timer: from two states that differ only in ST, a step faults alike or answers states
that differ at most in ST (R40, R51). -/
def Obligations.SoundTimerIsNeverRead : Prop :=
  ∀ (s : State) (b : Byte),
    (∀ t, step s = .next t → ∃ c, step (s.writeSt b) = .next (t.writeSt c)) ∧
    (∀ f, step s = .fault f → step (s.writeSt b) = .fault f)

/-! ## The host's operations (10_state.md R48, 60_exceptions.md, 70_reset_and_hazards.md) -/

/-- Tick decrements each nonzero timer by 1, leaves a zero timer at 0, and changes nothing else (R320). -/
def Obligations.TickDecrementsNonzeroTimers : Prop :=
  ∀ s : State, s.tick.dt.toNat = s.dt.toNat - 1 ∧ s.tick.st.toNat = s.st.toNat - 1 ∧ KeepsBut [.dt, .st] s s.tick

/-- SetKeys replaces the sixteen key states and changes nothing else (R325, D25). -/
def Obligations.SetKeysReplacesKeypad : Prop :=
  ∀ (s : State) (k : Vector Bool 16), (∀ j : Nibble, (s.setKeys k).key j = k[j.toNat]) ∧
    KeepsBut [.keys] s (s.setKeys k)

/-- Load copies a ROM of at most 3584 bytes to 0x200 and changes no other byte, none of the font's, and rejects a longer
one with nothing written (R353, R354). -/
def Obligations.LoadCopiesRomOrRejects : Prop :=
  (∀ (s : State) (rom : List Byte), rom.length ≤ 3584 →
    (s.load rom).1 = .loadOk ∧
    (∀ (j : Nat) (h : j < rom.length), (s.load rom).2.readMem (BitVec.ofNat 12 (0x200 + j)) = rom[j]) ∧
    (∀ a : Addr, a.toNat < 0x200 ∨ 0x200 + rom.length ≤ a.toNat → (s.load rom).2.readMem a = s.readMem a) ∧
    (∀ a : Addr, inFont a = true → (s.load rom).2.readMem a = s.readMem a) ∧
    KeepsBut [.mem] s (s.load rom).2) ∧
  (∀ (s : State) (rom : List Byte), 3584 < rom.length → s.load rom = (.romTooLarge, s))

/-- Until the first Step every Load is admitted and does what `State.load` says, any number of times, since only a Step ends
that interval; once a Step has been issued, be it one that faulted, Load is refused with nothing changed. Reset happens
once, before anything else, and starts a session with no Step issued (R331, R350, R355, the spec's decision D19; log
entry 15). -/
def Obligations.LoadOnlyBeforeFirstStep : Prop :=
  (∀ (r : Run) (rom : List Byte), r.stepped = false →
    r.perform (.load rom) = (.loaded (r.core.load rom).1, { r with core := (r.core.load rom).2 })) ∧
  (∀ (r : Run) (op : Op), op ≠ .step → (r.perform op).2.stepped = r.stepped) ∧
  (∀ r : Run, r.step.2.stepped = true) ∧
  (∀ (r : Run) (rom : List Byte), r.stepped = true → r.perform (.load rom) = (.refused .loadAfterStep, r)) ∧
  (∀ r : Run, r.perform .reset = (.refused .resetTwice, r)) ∧
  (Session.unbuilt.perform .reset).2 = .built { core := State.reset, stepped := false, record := [] } ∧
  (∀ op : Op, (Session.unbuilt.perform op).2 ≠ .unbuilt ↔ op = .reset)

/-- A fault leaves the core exactly as before the step, and is recorded (R305, the spec's decision D11; R314, D31). -/
def Obligations.FaultLeavesCoreUnchanged : Prop :=
  ∀ (r : Run) (f : Fault), step r.core = .fault f →
    r.step.1 = .stepped (.faulted f) ∧ r.step.2.core = r.core ∧ StepOutcome.faulted f ∈ r.step.2.record

/-- A recorded fault or unknown opcode is never cleared, and a step on an unknown word is recorded (R314, D31). -/
def Obligations.RecordIsNeverCleared : Prop :=
  (∀ (r : Run) (ops : List Op) (o : StepOutcome), o ∈ r.record → o ∈ (r.performAll ops).record) ∧
  (∀ r : Run, unknownWord (fetchWord r.core) = true →
    StepOutcome.reported (.unknownOpcode (fetchWord r.core) r.core.pc) ∈ r.step.2.record)

/-- A faulted core is stuck: whatever the host does after the faulting Step, every later step faults alike (R313, derived
there; the unchanged state D11). It rests on the refusal of a Load after that Step (R355, D19) and of a second Reset (R331,
R350), either of which could replace the faulting word or the state: that a faulted Step counts as the first one, and
that the model refuses the second Reset, is the model's reading (DEDUCED, log entry 15). -/
def Obligations.FaultRepeatsForEver : Prop :=
  ∀ (r : Run) (f : Fault) (ops : List Op), step r.core = .fault f →
    step (r.step.2.performAll ops).core = .fault f

/-- The outputs: `sound_active` is ST ≠ 0, and element y * 64 + x of the flat framebuffer is `FB[y][x]`, presented as
PIXEL_ON or zero (R40, R42, R43; PIXEL_ON is open, D28, log entry 4). -/
def Obligations.OutputsShowSoundAndPixels : Prop :=
  ∀ s : State, (s.soundActive = true ↔ s.st ≠ 0) ∧ s.fbFlat.length = 2048 ∧ s.fbOut.length = 2048 ∧
    ∀ x y, x < 64 → y < 32 → s.fbFlat[y * 64 + x]? = some (pixelAt s.fb x y) ∧
      s.fbOut[y * 64 + x]? = some (if pixelAt s.fb x y then Config.pixelOn else 0)
end

