-- ==== Sys2Proof/Laws/State.lean ====
section
/-! SUPPORT. One lemma per field per update of `State`, so that no later proof unfolds a record update, and the same for
the accessors `readV`, `readMem`, `key`, `indexAddr` and `readIndexed`. -/

namespace Sys2Proof.Machine

/-! ## writeV -/

@[simp] theorem State.writeV_v (s : State) (x : Reg) (b : Byte) : (s.writeV x b).v = s.v.set x.toNat b := rfl
@[simp] theorem State.writeV_pc (s : State) (x : Reg) (b : Byte) : (s.writeV x b).pc = s.pc := rfl
@[simp] theorem State.writeV_i (s : State) (x : Reg) (b : Byte) : (s.writeV x b).i = s.i := rfl
@[simp] theorem State.writeV_sp (s : State) (x : Reg) (b : Byte) : (s.writeV x b).sp = s.sp := rfl
@[simp] theorem State.writeV_stack (s : State) (x : Reg) (b : Byte) : (s.writeV x b).stack = s.stack := rfl
@[simp] theorem State.writeV_dt (s : State) (x : Reg) (b : Byte) : (s.writeV x b).dt = s.dt := rfl
@[simp] theorem State.writeV_st (s : State) (x : Reg) (b : Byte) : (s.writeV x b).st = s.st := rfl
@[simp] theorem State.writeV_keys (s : State) (x : Reg) (b : Byte) : (s.writeV x b).keys = s.keys := rfl
@[simp] theorem State.writeV_fb (s : State) (x : Reg) (b : Byte) : (s.writeV x b).fb = s.fb := rfl
@[simp] theorem State.writeV_mem (s : State) (x : Reg) (b : Byte) : (s.writeV x b).mem = s.mem := rfl
@[simp] theorem State.writeV_outcome (s : State) (x : Reg) (b : Byte) : (s.writeV x b).outcome = s.outcome := rfl
@[simp] theorem State.writeV_rndDraws (s : State) (x : Reg) (b : Byte) : (s.writeV x b).rndDraws = s.rndDraws := rfl
@[simp] theorem State.writeV_readMem (s : State) (x : Reg) (b : Byte) (a' : Addr) : (s.writeV x b).readMem a' = s.readMem a' := rfl
@[simp] theorem State.writeV_key (s : State) (x : Reg) (b : Byte) (k' : Nibble) : (s.writeV x b).key k' = s.key k' := rfl
@[simp] theorem State.writeV_indexAddr (s : State) (x : Reg) (b : Byte) (n : Nat) : (s.writeV x b).indexAddr n = s.indexAddr n := rfl
@[simp] theorem State.writeV_readIndexed (s : State) (x : Reg) (b : Byte) (n : Nat) : (s.writeV x b).readIndexed n = s.readIndexed n := rfl

/-! ## writePc -/

@[simp] theorem State.writePc_v (s : State) (t : Word) : (s.writePc t).v = s.v := rfl
@[simp] theorem State.writePc_pc (s : State) (t : Word) : (s.writePc t).pc = t := rfl
@[simp] theorem State.writePc_i (s : State) (t : Word) : (s.writePc t).i = s.i := rfl
@[simp] theorem State.writePc_sp (s : State) (t : Word) : (s.writePc t).sp = s.sp := rfl
@[simp] theorem State.writePc_stack (s : State) (t : Word) : (s.writePc t).stack = s.stack := rfl
@[simp] theorem State.writePc_dt (s : State) (t : Word) : (s.writePc t).dt = s.dt := rfl
@[simp] theorem State.writePc_st (s : State) (t : Word) : (s.writePc t).st = s.st := rfl
@[simp] theorem State.writePc_keys (s : State) (t : Word) : (s.writePc t).keys = s.keys := rfl
@[simp] theorem State.writePc_fb (s : State) (t : Word) : (s.writePc t).fb = s.fb := rfl
@[simp] theorem State.writePc_mem (s : State) (t : Word) : (s.writePc t).mem = s.mem := rfl
@[simp] theorem State.writePc_outcome (s : State) (t : Word) : (s.writePc t).outcome = s.outcome := rfl
@[simp] theorem State.writePc_rndDraws (s : State) (t : Word) : (s.writePc t).rndDraws = s.rndDraws := rfl
@[simp] theorem State.writePc_readV (s : State) (t : Word) (z : Reg) : (s.writePc t).readV z = s.readV z := rfl
@[simp] theorem State.writePc_readMem (s : State) (t : Word) (a' : Addr) : (s.writePc t).readMem a' = s.readMem a' := rfl
@[simp] theorem State.writePc_key (s : State) (t : Word) (k' : Nibble) : (s.writePc t).key k' = s.key k' := rfl
@[simp] theorem State.writePc_indexAddr (s : State) (t : Word) (n : Nat) : (s.writePc t).indexAddr n = s.indexAddr n := rfl
@[simp] theorem State.writePc_readIndexed (s : State) (t : Word) (n : Nat) : (s.writePc t).readIndexed n = s.readIndexed n := rfl

/-! ## writeI -/

@[simp] theorem State.writeI_v (s : State) (t : Word) : (s.writeI t).v = s.v := rfl
@[simp] theorem State.writeI_pc (s : State) (t : Word) : (s.writeI t).pc = s.pc := rfl
@[simp] theorem State.writeI_i (s : State) (t : Word) : (s.writeI t).i = t := rfl
@[simp] theorem State.writeI_sp (s : State) (t : Word) : (s.writeI t).sp = s.sp := rfl
@[simp] theorem State.writeI_stack (s : State) (t : Word) : (s.writeI t).stack = s.stack := rfl
@[simp] theorem State.writeI_dt (s : State) (t : Word) : (s.writeI t).dt = s.dt := rfl
@[simp] theorem State.writeI_st (s : State) (t : Word) : (s.writeI t).st = s.st := rfl
@[simp] theorem State.writeI_keys (s : State) (t : Word) : (s.writeI t).keys = s.keys := rfl
@[simp] theorem State.writeI_fb (s : State) (t : Word) : (s.writeI t).fb = s.fb := rfl
@[simp] theorem State.writeI_mem (s : State) (t : Word) : (s.writeI t).mem = s.mem := rfl
@[simp] theorem State.writeI_outcome (s : State) (t : Word) : (s.writeI t).outcome = s.outcome := rfl
@[simp] theorem State.writeI_rndDraws (s : State) (t : Word) : (s.writeI t).rndDraws = s.rndDraws := rfl
@[simp] theorem State.writeI_readV (s : State) (t : Word) (z : Reg) : (s.writeI t).readV z = s.readV z := rfl
@[simp] theorem State.writeI_readMem (s : State) (t : Word) (a' : Addr) : (s.writeI t).readMem a' = s.readMem a' := rfl
@[simp] theorem State.writeI_key (s : State) (t : Word) (k' : Nibble) : (s.writeI t).key k' = s.key k' := rfl

/-! ## writeDt -/

@[simp] theorem State.writeDt_v (s : State) (b : Byte) : (s.writeDt b).v = s.v := rfl
@[simp] theorem State.writeDt_pc (s : State) (b : Byte) : (s.writeDt b).pc = s.pc := rfl
@[simp] theorem State.writeDt_i (s : State) (b : Byte) : (s.writeDt b).i = s.i := rfl
@[simp] theorem State.writeDt_sp (s : State) (b : Byte) : (s.writeDt b).sp = s.sp := rfl
@[simp] theorem State.writeDt_stack (s : State) (b : Byte) : (s.writeDt b).stack = s.stack := rfl
@[simp] theorem State.writeDt_dt (s : State) (b : Byte) : (s.writeDt b).dt = b := rfl
@[simp] theorem State.writeDt_st (s : State) (b : Byte) : (s.writeDt b).st = s.st := rfl
@[simp] theorem State.writeDt_keys (s : State) (b : Byte) : (s.writeDt b).keys = s.keys := rfl
@[simp] theorem State.writeDt_fb (s : State) (b : Byte) : (s.writeDt b).fb = s.fb := rfl
@[simp] theorem State.writeDt_mem (s : State) (b : Byte) : (s.writeDt b).mem = s.mem := rfl
@[simp] theorem State.writeDt_outcome (s : State) (b : Byte) : (s.writeDt b).outcome = s.outcome := rfl
@[simp] theorem State.writeDt_rndDraws (s : State) (b : Byte) : (s.writeDt b).rndDraws = s.rndDraws := rfl
@[simp] theorem State.writeDt_readV (s : State) (b : Byte) (z : Reg) : (s.writeDt b).readV z = s.readV z := rfl
@[simp] theorem State.writeDt_readMem (s : State) (b : Byte) (a' : Addr) : (s.writeDt b).readMem a' = s.readMem a' := rfl
@[simp] theorem State.writeDt_key (s : State) (b : Byte) (k' : Nibble) : (s.writeDt b).key k' = s.key k' := rfl
@[simp] theorem State.writeDt_indexAddr (s : State) (b : Byte) (n : Nat) : (s.writeDt b).indexAddr n = s.indexAddr n := rfl
@[simp] theorem State.writeDt_readIndexed (s : State) (b : Byte) (n : Nat) : (s.writeDt b).readIndexed n = s.readIndexed n := rfl

/-! ## writeSt -/

@[simp] theorem State.writeSt_v (s : State) (b : Byte) : (s.writeSt b).v = s.v := rfl
@[simp] theorem State.writeSt_pc (s : State) (b : Byte) : (s.writeSt b).pc = s.pc := rfl
@[simp] theorem State.writeSt_i (s : State) (b : Byte) : (s.writeSt b).i = s.i := rfl
@[simp] theorem State.writeSt_sp (s : State) (b : Byte) : (s.writeSt b).sp = s.sp := rfl
@[simp] theorem State.writeSt_stack (s : State) (b : Byte) : (s.writeSt b).stack = s.stack := rfl
@[simp] theorem State.writeSt_dt (s : State) (b : Byte) : (s.writeSt b).dt = s.dt := rfl
@[simp] theorem State.writeSt_st (s : State) (b : Byte) : (s.writeSt b).st = b := rfl
@[simp] theorem State.writeSt_keys (s : State) (b : Byte) : (s.writeSt b).keys = s.keys := rfl
@[simp] theorem State.writeSt_fb (s : State) (b : Byte) : (s.writeSt b).fb = s.fb := rfl
@[simp] theorem State.writeSt_mem (s : State) (b : Byte) : (s.writeSt b).mem = s.mem := rfl
@[simp] theorem State.writeSt_outcome (s : State) (b : Byte) : (s.writeSt b).outcome = s.outcome := rfl
@[simp] theorem State.writeSt_rndDraws (s : State) (b : Byte) : (s.writeSt b).rndDraws = s.rndDraws := rfl
@[simp] theorem State.writeSt_readV (s : State) (b : Byte) (z : Reg) : (s.writeSt b).readV z = s.readV z := rfl
@[simp] theorem State.writeSt_readMem (s : State) (b : Byte) (a' : Addr) : (s.writeSt b).readMem a' = s.readMem a' := rfl
@[simp] theorem State.writeSt_key (s : State) (b : Byte) (k' : Nibble) : (s.writeSt b).key k' = s.key k' := rfl
@[simp] theorem State.writeSt_indexAddr (s : State) (b : Byte) (n : Nat) : (s.writeSt b).indexAddr n = s.indexAddr n := rfl
@[simp] theorem State.writeSt_readIndexed (s : State) (b : Byte) (n : Nat) : (s.writeSt b).readIndexed n = s.readIndexed n := rfl

/-! ## writeFb -/

@[simp] theorem State.writeFb_v (s : State) (f : Framebuffer) : (s.writeFb f).v = s.v := rfl
@[simp] theorem State.writeFb_pc (s : State) (f : Framebuffer) : (s.writeFb f).pc = s.pc := rfl
@[simp] theorem State.writeFb_i (s : State) (f : Framebuffer) : (s.writeFb f).i = s.i := rfl
@[simp] theorem State.writeFb_sp (s : State) (f : Framebuffer) : (s.writeFb f).sp = s.sp := rfl
@[simp] theorem State.writeFb_stack (s : State) (f : Framebuffer) : (s.writeFb f).stack = s.stack := rfl
@[simp] theorem State.writeFb_dt (s : State) (f : Framebuffer) : (s.writeFb f).dt = s.dt := rfl
@[simp] theorem State.writeFb_st (s : State) (f : Framebuffer) : (s.writeFb f).st = s.st := rfl
@[simp] theorem State.writeFb_keys (s : State) (f : Framebuffer) : (s.writeFb f).keys = s.keys := rfl
@[simp] theorem State.writeFb_fb (s : State) (f : Framebuffer) : (s.writeFb f).fb = f := rfl
@[simp] theorem State.writeFb_mem (s : State) (f : Framebuffer) : (s.writeFb f).mem = s.mem := rfl
@[simp] theorem State.writeFb_outcome (s : State) (f : Framebuffer) : (s.writeFb f).outcome = s.outcome := rfl
@[simp] theorem State.writeFb_rndDraws (s : State) (f : Framebuffer) : (s.writeFb f).rndDraws = s.rndDraws := rfl
@[simp] theorem State.writeFb_readV (s : State) (f : Framebuffer) (z : Reg) : (s.writeFb f).readV z = s.readV z := rfl
@[simp] theorem State.writeFb_readMem (s : State) (f : Framebuffer) (a' : Addr) : (s.writeFb f).readMem a' = s.readMem a' := rfl
@[simp] theorem State.writeFb_key (s : State) (f : Framebuffer) (k' : Nibble) : (s.writeFb f).key k' = s.key k' := rfl
@[simp] theorem State.writeFb_indexAddr (s : State) (f : Framebuffer) (n : Nat) : (s.writeFb f).indexAddr n = s.indexAddr n := rfl
@[simp] theorem State.writeFb_readIndexed (s : State) (f : Framebuffer) (n : Nat) : (s.writeFb f).readIndexed n = s.readIndexed n := rfl

/-! ## writeMem -/

@[simp] theorem State.writeMem_v (s : State) (a : Addr) (b : Byte) : (s.writeMem a b).v = s.v := rfl
@[simp] theorem State.writeMem_pc (s : State) (a : Addr) (b : Byte) : (s.writeMem a b).pc = s.pc := rfl
@[simp] theorem State.writeMem_i (s : State) (a : Addr) (b : Byte) : (s.writeMem a b).i = s.i := rfl
@[simp] theorem State.writeMem_sp (s : State) (a : Addr) (b : Byte) : (s.writeMem a b).sp = s.sp := rfl
@[simp] theorem State.writeMem_stack (s : State) (a : Addr) (b : Byte) : (s.writeMem a b).stack = s.stack := rfl
@[simp] theorem State.writeMem_dt (s : State) (a : Addr) (b : Byte) : (s.writeMem a b).dt = s.dt := rfl
@[simp] theorem State.writeMem_st (s : State) (a : Addr) (b : Byte) : (s.writeMem a b).st = s.st := rfl
@[simp] theorem State.writeMem_keys (s : State) (a : Addr) (b : Byte) : (s.writeMem a b).keys = s.keys := rfl
@[simp] theorem State.writeMem_fb (s : State) (a : Addr) (b : Byte) : (s.writeMem a b).fb = s.fb := rfl
@[simp] theorem State.writeMem_mem (s : State) (a : Addr) (b : Byte) : (s.writeMem a b).mem = s.mem.write a.toNat b := rfl
@[simp] theorem State.writeMem_outcome (s : State) (a : Addr) (b : Byte) : (s.writeMem a b).outcome = s.outcome := rfl
@[simp] theorem State.writeMem_rndDraws (s : State) (a : Addr) (b : Byte) : (s.writeMem a b).rndDraws = s.rndDraws := rfl
@[simp] theorem State.writeMem_readV (s : State) (a : Addr) (b : Byte) (z : Reg) : (s.writeMem a b).readV z = s.readV z := rfl
@[simp] theorem State.writeMem_key (s : State) (a : Addr) (b : Byte) (k' : Nibble) : (s.writeMem a b).key k' = s.key k' := rfl
@[simp] theorem State.writeMem_indexAddr (s : State) (a : Addr) (b : Byte) (n : Nat) : (s.writeMem a b).indexAddr n = s.indexAddr n := rfl

/-! ## writeSp -/

@[simp] theorem State.writeSp_v (s : State) (n' : Fin 17) : (s.writeSp n').v = s.v := rfl
@[simp] theorem State.writeSp_pc (s : State) (n' : Fin 17) : (s.writeSp n').pc = s.pc := rfl
@[simp] theorem State.writeSp_i (s : State) (n' : Fin 17) : (s.writeSp n').i = s.i := rfl
@[simp] theorem State.writeSp_sp (s : State) (n' : Fin 17) : (s.writeSp n').sp = n' := rfl
@[simp] theorem State.writeSp_stack (s : State) (n' : Fin 17) : (s.writeSp n').stack = s.stack := rfl
@[simp] theorem State.writeSp_dt (s : State) (n' : Fin 17) : (s.writeSp n').dt = s.dt := rfl
@[simp] theorem State.writeSp_st (s : State) (n' : Fin 17) : (s.writeSp n').st = s.st := rfl
@[simp] theorem State.writeSp_keys (s : State) (n' : Fin 17) : (s.writeSp n').keys = s.keys := rfl
@[simp] theorem State.writeSp_fb (s : State) (n' : Fin 17) : (s.writeSp n').fb = s.fb := rfl
@[simp] theorem State.writeSp_mem (s : State) (n' : Fin 17) : (s.writeSp n').mem = s.mem := rfl
@[simp] theorem State.writeSp_outcome (s : State) (n' : Fin 17) : (s.writeSp n').outcome = s.outcome := rfl
@[simp] theorem State.writeSp_rndDraws (s : State) (n' : Fin 17) : (s.writeSp n').rndDraws = s.rndDraws := rfl
@[simp] theorem State.writeSp_readV (s : State) (n' : Fin 17) (z : Reg) : (s.writeSp n').readV z = s.readV z := rfl
@[simp] theorem State.writeSp_readMem (s : State) (n' : Fin 17) (a' : Addr) : (s.writeSp n').readMem a' = s.readMem a' := rfl
@[simp] theorem State.writeSp_key (s : State) (n' : Fin 17) (k' : Nibble) : (s.writeSp n').key k' = s.key k' := rfl
@[simp] theorem State.writeSp_indexAddr (s : State) (n' : Fin 17) (n : Nat) : (s.writeSp n').indexAddr n = s.indexAddr n := rfl
@[simp] theorem State.writeSp_readIndexed (s : State) (n' : Fin 17) (n : Nat) : (s.writeSp n').readIndexed n = s.readIndexed n := rfl

/-! ## writeStack -/

@[simp] theorem State.writeStack_v (s : State) (k : Vector Word 16) : (s.writeStack k).v = s.v := rfl
@[simp] theorem State.writeStack_pc (s : State) (k : Vector Word 16) : (s.writeStack k).pc = s.pc := rfl
@[simp] theorem State.writeStack_i (s : State) (k : Vector Word 16) : (s.writeStack k).i = s.i := rfl
@[simp] theorem State.writeStack_sp (s : State) (k : Vector Word 16) : (s.writeStack k).sp = s.sp := rfl
@[simp] theorem State.writeStack_stack (s : State) (k : Vector Word 16) : (s.writeStack k).stack = k := rfl
@[simp] theorem State.writeStack_dt (s : State) (k : Vector Word 16) : (s.writeStack k).dt = s.dt := rfl
@[simp] theorem State.writeStack_st (s : State) (k : Vector Word 16) : (s.writeStack k).st = s.st := rfl
@[simp] theorem State.writeStack_keys (s : State) (k : Vector Word 16) : (s.writeStack k).keys = s.keys := rfl
@[simp] theorem State.writeStack_fb (s : State) (k : Vector Word 16) : (s.writeStack k).fb = s.fb := rfl
@[simp] theorem State.writeStack_mem (s : State) (k : Vector Word 16) : (s.writeStack k).mem = s.mem := rfl
@[simp] theorem State.writeStack_outcome (s : State) (k : Vector Word 16) : (s.writeStack k).outcome = s.outcome := rfl
@[simp] theorem State.writeStack_rndDraws (s : State) (k : Vector Word 16) : (s.writeStack k).rndDraws = s.rndDraws := rfl
@[simp] theorem State.writeStack_readV (s : State) (k : Vector Word 16) (z : Reg) : (s.writeStack k).readV z = s.readV z := rfl
@[simp] theorem State.writeStack_readMem (s : State) (k : Vector Word 16) (a' : Addr) : (s.writeStack k).readMem a' = s.readMem a' := rfl
@[simp] theorem State.writeStack_key (s : State) (k : Vector Word 16) (k' : Nibble) : (s.writeStack k).key k' = s.key k' := rfl
@[simp] theorem State.writeStack_indexAddr (s : State) (k : Vector Word 16) (n : Nat) : (s.writeStack k).indexAddr n = s.indexAddr n := rfl
@[simp] theorem State.writeStack_readIndexed (s : State) (k : Vector Word 16) (n : Nat) : (s.writeStack k).readIndexed n = s.readIndexed n := rfl

/-! ## writeOutcome -/

@[simp] theorem State.writeOutcome_v (s : State) (o : Report) : (s.writeOutcome o).v = s.v := rfl
@[simp] theorem State.writeOutcome_pc (s : State) (o : Report) : (s.writeOutcome o).pc = s.pc := rfl
@[simp] theorem State.writeOutcome_i (s : State) (o : Report) : (s.writeOutcome o).i = s.i := rfl
@[simp] theorem State.writeOutcome_sp (s : State) (o : Report) : (s.writeOutcome o).sp = s.sp := rfl
@[simp] theorem State.writeOutcome_stack (s : State) (o : Report) : (s.writeOutcome o).stack = s.stack := rfl
@[simp] theorem State.writeOutcome_dt (s : State) (o : Report) : (s.writeOutcome o).dt = s.dt := rfl
@[simp] theorem State.writeOutcome_st (s : State) (o : Report) : (s.writeOutcome o).st = s.st := rfl
@[simp] theorem State.writeOutcome_keys (s : State) (o : Report) : (s.writeOutcome o).keys = s.keys := rfl
@[simp] theorem State.writeOutcome_fb (s : State) (o : Report) : (s.writeOutcome o).fb = s.fb := rfl
@[simp] theorem State.writeOutcome_mem (s : State) (o : Report) : (s.writeOutcome o).mem = s.mem := rfl
@[simp] theorem State.writeOutcome_outcome (s : State) (o : Report) : (s.writeOutcome o).outcome = o := rfl
@[simp] theorem State.writeOutcome_rndDraws (s : State) (o : Report) : (s.writeOutcome o).rndDraws = s.rndDraws := rfl
@[simp] theorem State.writeOutcome_readV (s : State) (o : Report) (z : Reg) : (s.writeOutcome o).readV z = s.readV z := rfl
@[simp] theorem State.writeOutcome_readMem (s : State) (o : Report) (a' : Addr) : (s.writeOutcome o).readMem a' = s.readMem a' := rfl
@[simp] theorem State.writeOutcome_key (s : State) (o : Report) (k' : Nibble) : (s.writeOutcome o).key k' = s.key k' := rfl
@[simp] theorem State.writeOutcome_indexAddr (s : State) (o : Report) (n : Nat) : (s.writeOutcome o).indexAddr n = s.indexAddr n := rfl
@[simp] theorem State.writeOutcome_readIndexed (s : State) (o : Report) (n : Nat) : (s.writeOutcome o).readIndexed n = s.readIndexed n := rfl

/-! ## drawn -/

@[simp] theorem State.drawn_v (s : State) : (s.drawn).v = s.v := rfl
@[simp] theorem State.drawn_pc (s : State) : (s.drawn).pc = s.pc := rfl
@[simp] theorem State.drawn_i (s : State) : (s.drawn).i = s.i := rfl
@[simp] theorem State.drawn_sp (s : State) : (s.drawn).sp = s.sp := rfl
@[simp] theorem State.drawn_stack (s : State) : (s.drawn).stack = s.stack := rfl
@[simp] theorem State.drawn_dt (s : State) : (s.drawn).dt = s.dt := rfl
@[simp] theorem State.drawn_st (s : State) : (s.drawn).st = s.st := rfl
@[simp] theorem State.drawn_keys (s : State) : (s.drawn).keys = s.keys := rfl
@[simp] theorem State.drawn_fb (s : State) : (s.drawn).fb = s.fb := rfl
@[simp] theorem State.drawn_mem (s : State) : (s.drawn).mem = s.mem := rfl
@[simp] theorem State.drawn_outcome (s : State) : (s.drawn).outcome = s.outcome := rfl
@[simp] theorem State.drawn_rndDraws (s : State) : (s.drawn).rndDraws = s.rndDraws + 1 := rfl
@[simp] theorem State.drawn_readV (s : State) (z : Reg) : (s.drawn).readV z = s.readV z := rfl
@[simp] theorem State.drawn_readMem (s : State) (a' : Addr) : (s.drawn).readMem a' = s.readMem a' := rfl
@[simp] theorem State.drawn_key (s : State) (k' : Nibble) : (s.drawn).key k' = s.key k' := rfl
@[simp] theorem State.drawn_indexAddr (s : State) (n : Nat) : (s.drawn).indexAddr n = s.indexAddr n := rfl
@[simp] theorem State.drawn_readIndexed (s : State) (n : Nat) : (s.drawn).readIndexed n = s.readIndexed n := rfl

/-! ## advancePc -/

@[simp] theorem State.advancePc_v (s : State) : (s.advancePc).v = s.v := rfl
@[simp] theorem State.advancePc_pc (s : State) : (s.advancePc).pc = s.pc + 2 := rfl
@[simp] theorem State.advancePc_i (s : State) : (s.advancePc).i = s.i := rfl
@[simp] theorem State.advancePc_sp (s : State) : (s.advancePc).sp = s.sp := rfl
@[simp] theorem State.advancePc_stack (s : State) : (s.advancePc).stack = s.stack := rfl
@[simp] theorem State.advancePc_dt (s : State) : (s.advancePc).dt = s.dt := rfl
@[simp] theorem State.advancePc_st (s : State) : (s.advancePc).st = s.st := rfl
@[simp] theorem State.advancePc_keys (s : State) : (s.advancePc).keys = s.keys := rfl
@[simp] theorem State.advancePc_fb (s : State) : (s.advancePc).fb = s.fb := rfl
@[simp] theorem State.advancePc_mem (s : State) : (s.advancePc).mem = s.mem := rfl
@[simp] theorem State.advancePc_outcome (s : State) : (s.advancePc).outcome = s.outcome := rfl
@[simp] theorem State.advancePc_rndDraws (s : State) : (s.advancePc).rndDraws = s.rndDraws := rfl
@[simp] theorem State.advancePc_readV (s : State) (z : Reg) : (s.advancePc).readV z = s.readV z := rfl
@[simp] theorem State.advancePc_readMem (s : State) (a' : Addr) : (s.advancePc).readMem a' = s.readMem a' := rfl
@[simp] theorem State.advancePc_key (s : State) (k' : Nibble) : (s.advancePc).key k' = s.key k' := rfl
@[simp] theorem State.advancePc_indexAddr (s : State) (n : Nat) : (s.advancePc).indexAddr n = s.indexAddr n := rfl
@[simp] theorem State.advancePc_readIndexed (s : State) (n : Nat) : (s.advancePc).readIndexed n = s.readIndexed n := rfl

/-! ## rollBackPc -/

@[simp] theorem State.rollBackPc_v (s : State) : (s.rollBackPc).v = s.v := rfl
@[simp] theorem State.rollBackPc_pc (s : State) : (s.rollBackPc).pc = s.pc - 2 := rfl
@[simp] theorem State.rollBackPc_i (s : State) : (s.rollBackPc).i = s.i := rfl
@[simp] theorem State.rollBackPc_sp (s : State) : (s.rollBackPc).sp = s.sp := rfl
@[simp] theorem State.rollBackPc_stack (s : State) : (s.rollBackPc).stack = s.stack := rfl
@[simp] theorem State.rollBackPc_dt (s : State) : (s.rollBackPc).dt = s.dt := rfl
@[simp] theorem State.rollBackPc_st (s : State) : (s.rollBackPc).st = s.st := rfl
@[simp] theorem State.rollBackPc_keys (s : State) : (s.rollBackPc).keys = s.keys := rfl
@[simp] theorem State.rollBackPc_fb (s : State) : (s.rollBackPc).fb = s.fb := rfl
@[simp] theorem State.rollBackPc_mem (s : State) : (s.rollBackPc).mem = s.mem := rfl
@[simp] theorem State.rollBackPc_outcome (s : State) : (s.rollBackPc).outcome = s.outcome := rfl
@[simp] theorem State.rollBackPc_rndDraws (s : State) : (s.rollBackPc).rndDraws = s.rndDraws := rfl
@[simp] theorem State.rollBackPc_readV (s : State) (z : Reg) : (s.rollBackPc).readV z = s.readV z := rfl
@[simp] theorem State.rollBackPc_readMem (s : State) (a' : Addr) : (s.rollBackPc).readMem a' = s.readMem a' := rfl
@[simp] theorem State.rollBackPc_key (s : State) (k' : Nibble) : (s.rollBackPc).key k' = s.key k' := rfl
@[simp] theorem State.rollBackPc_indexAddr (s : State) (n : Nat) : (s.rollBackPc).indexAddr n = s.indexAddr n := rfl
@[simp] theorem State.rollBackPc_readIndexed (s : State) (n : Nat) : (s.rollBackPc).readIndexed n = s.readIndexed n := rfl

/-! ## tick -/

@[simp] theorem State.tick_v (s : State) : (s.tick).v = s.v := rfl
@[simp] theorem State.tick_pc (s : State) : (s.tick).pc = s.pc := rfl
@[simp] theorem State.tick_i (s : State) : (s.tick).i = s.i := rfl
@[simp] theorem State.tick_sp (s : State) : (s.tick).sp = s.sp := rfl
@[simp] theorem State.tick_stack (s : State) : (s.tick).stack = s.stack := rfl
@[simp] theorem State.tick_dt (s : State) : (s.tick).dt = tickTimer s.dt := rfl
@[simp] theorem State.tick_st (s : State) : (s.tick).st = tickTimer s.st := rfl
@[simp] theorem State.tick_keys (s : State) : (s.tick).keys = s.keys := rfl
@[simp] theorem State.tick_fb (s : State) : (s.tick).fb = s.fb := rfl
@[simp] theorem State.tick_mem (s : State) : (s.tick).mem = s.mem := rfl
@[simp] theorem State.tick_outcome (s : State) : (s.tick).outcome = s.outcome := rfl
@[simp] theorem State.tick_rndDraws (s : State) : (s.tick).rndDraws = s.rndDraws := rfl
@[simp] theorem State.tick_readV (s : State) (z : Reg) : (s.tick).readV z = s.readV z := rfl
@[simp] theorem State.tick_readMem (s : State) (a' : Addr) : (s.tick).readMem a' = s.readMem a' := rfl
@[simp] theorem State.tick_key (s : State) (k' : Nibble) : (s.tick).key k' = s.key k' := rfl
@[simp] theorem State.tick_indexAddr (s : State) (n : Nat) : (s.tick).indexAddr n = s.indexAddr n := rfl
@[simp] theorem State.tick_readIndexed (s : State) (n : Nat) : (s.tick).readIndexed n = s.readIndexed n := rfl

/-! ## setKeys -/

@[simp] theorem State.setKeys_v (s : State) (k : Vector Bool 16) : (s.setKeys k).v = s.v := rfl
@[simp] theorem State.setKeys_pc (s : State) (k : Vector Bool 16) : (s.setKeys k).pc = s.pc := rfl
@[simp] theorem State.setKeys_i (s : State) (k : Vector Bool 16) : (s.setKeys k).i = s.i := rfl
@[simp] theorem State.setKeys_sp (s : State) (k : Vector Bool 16) : (s.setKeys k).sp = s.sp := rfl
@[simp] theorem State.setKeys_stack (s : State) (k : Vector Bool 16) : (s.setKeys k).stack = s.stack := rfl
@[simp] theorem State.setKeys_dt (s : State) (k : Vector Bool 16) : (s.setKeys k).dt = s.dt := rfl
@[simp] theorem State.setKeys_st (s : State) (k : Vector Bool 16) : (s.setKeys k).st = s.st := rfl
@[simp] theorem State.setKeys_keys (s : State) (k : Vector Bool 16) : (s.setKeys k).keys = k := rfl
@[simp] theorem State.setKeys_fb (s : State) (k : Vector Bool 16) : (s.setKeys k).fb = s.fb := rfl
@[simp] theorem State.setKeys_mem (s : State) (k : Vector Bool 16) : (s.setKeys k).mem = s.mem := rfl
@[simp] theorem State.setKeys_outcome (s : State) (k : Vector Bool 16) : (s.setKeys k).outcome = s.outcome := rfl
@[simp] theorem State.setKeys_rndDraws (s : State) (k : Vector Bool 16) : (s.setKeys k).rndDraws = s.rndDraws := rfl
@[simp] theorem State.setKeys_readV (s : State) (k : Vector Bool 16) (z : Reg) : (s.setKeys k).readV z = s.readV z := rfl
@[simp] theorem State.setKeys_readMem (s : State) (k : Vector Bool 16) (a' : Addr) : (s.setKeys k).readMem a' = s.readMem a' := rfl
@[simp] theorem State.setKeys_indexAddr (s : State) (k : Vector Bool 16) (n : Nat) : (s.setKeys k).indexAddr n = s.indexAddr n := rfl
@[simp] theorem State.setKeys_readIndexed (s : State) (k : Vector Bool 16) (n : Nat) : (s.setKeys k).readIndexed n = s.readIndexed n := rfl

/-! ## Registers -/

/-- Reading a register after a write gives the value written there, and what was there elsewhere (R30). -/
@[simp] theorem State.readV_writeV (s : State) (x : Reg) (b : Byte) (z : Reg) :
    (s.writeV x b).readV z = if z = x then b else s.readV z := by
  simp only [State.readV, State.writeV, Vector.getElem_set, BitVec.toNat_inj, eq_comm]

/-- Registers after a flag and then a result are written (R171). -/
@[simp] theorem State.readV_writeFlagged (s : State) (x : Reg) (f : Bool) (r : Byte) (z : Reg) :
    (s.writeFlagged x f r).readV z = if z = x then r else if z = regF then flagByte f else s.readV z := by
  simp [State.writeFlagged]

@[simp] theorem State.writeFlagged_pc (s : State) (x : Reg) (f : Bool) (r : Byte) : (s.writeFlagged x f r).pc = s.pc := rfl
@[simp] theorem State.writeFlagged_i (s : State) (x : Reg) (f : Bool) (r : Byte) : (s.writeFlagged x f r).i = s.i := rfl
@[simp] theorem State.writeFlagged_sp (s : State) (x : Reg) (f : Bool) (r : Byte) : (s.writeFlagged x f r).sp = s.sp := rfl
@[simp] theorem State.writeFlagged_stack (s : State) (x : Reg) (f : Bool) (r : Byte) : (s.writeFlagged x f r).stack = s.stack := rfl
@[simp] theorem State.writeFlagged_dt (s : State) (x : Reg) (f : Bool) (r : Byte) : (s.writeFlagged x f r).dt = s.dt := rfl
@[simp] theorem State.writeFlagged_st (s : State) (x : Reg) (f : Bool) (r : Byte) : (s.writeFlagged x f r).st = s.st := rfl
@[simp] theorem State.writeFlagged_keys (s : State) (x : Reg) (f : Bool) (r : Byte) : (s.writeFlagged x f r).keys = s.keys := rfl
@[simp] theorem State.writeFlagged_fb (s : State) (x : Reg) (f : Bool) (r : Byte) : (s.writeFlagged x f r).fb = s.fb := rfl
@[simp] theorem State.writeFlagged_mem (s : State) (x : Reg) (f : Bool) (r : Byte) : (s.writeFlagged x f r).mem = s.mem := rfl
@[simp] theorem State.writeFlagged_outcome (s : State) (x : Reg) (f : Bool) (r : Byte) : (s.writeFlagged x f r).outcome = s.outcome := rfl
@[simp] theorem State.writeFlagged_rndDraws (s : State) (x : Reg) (f : Bool) (r : Byte) : (s.writeFlagged x f r).rndDraws = s.rndDraws := rfl
@[simp] theorem State.writeFlagged_readMem (s : State) (x : Reg) (f : Bool) (r : Byte) (a : Addr) :
    (s.writeFlagged x f r).readMem a = s.readMem a := rfl

/-! ## Skips -/

/-- The program counter after a skip test (R140). -/
@[simp] theorem State.skipIf_pc (s : State) (c : Bool) : (s.skipIf c).pc = if c then s.pc + 2 else s.pc := by
  cases c <;> rfl

@[simp] theorem State.skipIf_v (s : State) (c : Bool) : (s.skipIf c).v = s.v := by cases c <;> rfl
@[simp] theorem State.skipIf_i (s : State) (c : Bool) : (s.skipIf c).i = s.i := by cases c <;> rfl
@[simp] theorem State.skipIf_sp (s : State) (c : Bool) : (s.skipIf c).sp = s.sp := by cases c <;> rfl
@[simp] theorem State.skipIf_stack (s : State) (c : Bool) : (s.skipIf c).stack = s.stack := by cases c <;> rfl
@[simp] theorem State.skipIf_dt (s : State) (c : Bool) : (s.skipIf c).dt = s.dt := by cases c <;> rfl
@[simp] theorem State.skipIf_st (s : State) (c : Bool) : (s.skipIf c).st = s.st := by cases c <;> rfl
@[simp] theorem State.skipIf_keys (s : State) (c : Bool) : (s.skipIf c).keys = s.keys := by cases c <;> rfl
@[simp] theorem State.skipIf_fb (s : State) (c : Bool) : (s.skipIf c).fb = s.fb := by cases c <;> rfl
@[simp] theorem State.skipIf_mem (s : State) (c : Bool) : (s.skipIf c).mem = s.mem := by cases c <;> rfl
@[simp] theorem State.skipIf_outcome (s : State) (c : Bool) : (s.skipIf c).outcome = s.outcome := by cases c <;> rfl
@[simp] theorem State.skipIf_rndDraws (s : State) (c : Bool) : (s.skipIf c).rndDraws = s.rndDraws := by cases c <;> rfl
@[simp] theorem State.skipIf_readV (s : State) (c : Bool) (z : Reg) : (s.skipIf c).readV z = s.readV z := by
  cases c <;> rfl
@[simp] theorem State.skipIf_readMem (s : State) (c : Bool) (a : Addr) : (s.skipIf c).readMem a = s.readMem a := by
  cases c <;> rfl

end Sys2Proof.Machine
end

