-- ==== Sys2Proof/Laws/Blit.lean ====
section
/-! SUPPORT. What drawing a sprite does to each pixel and to the collision flag (spec 43_display.md R232 to R235): the
loops of `drawRows` in closed form. -/

namespace Sys2Proof.Machine

/-- The drawn pixels of a sprite row: bit `7 - c` at column `x0 + c` (R232, R234). -/
def rowDraws (b : Byte) (x0 k px : Nat) : Bool :=
  decide (px < 64) && decide (x0 ≤ px) && decide (px < x0 + k) && spriteBit b (px - x0)

theorem pixelAt_togglePixel (f : Framebuffer) (x y px py : Nat) (hx : x < 64) (hy : y < 32) (hpy : py < 32) :
    pixelAt (togglePixel f x y) px py = (pixelAt f px py ^^ decide (px = x ∧ py = y)) := by
  simp only [pixelAt, togglePixel, hy, hpy, dif_pos, Vector.getElem_set]
  by_cases h : y = py
  · subst h
    simp only [if_true, BitVec.getLsbD_xor, BitVec.getLsbD_twoPow, and_true]
    congr 1
    by_cases hpx : px = x
    · subst hpx; simp [hx]
    · simp [hpx, Ne.symm hpx]
  · simp [h, Ne.symm h]

/-- A row's columns: each drawn pixel toggles. -/
theorem drawColumns_pixel (b : Byte) (x0 y : Nat) (acc : Framebuffer × Bool) (k px py : Nat) (hpy : py < 32) :
    pixelAt (drawColumns b x0 y acc k).1 px py = (pixelAt acc.1 px py ^^ (decide (py = y) && rowDraws b x0 k px)) := by
  induction k with
  | zero =>
    have : rowDraws b x0 0 px = false := by
      simp only [rowDraws, Bool.and_eq_false_iff, decide_eq_false_iff_not]
      omega
    simp [drawColumns, this]
  | succ k ih =>
    have hstep : ∀ r : Bool, rowDraws b x0 (k + 1) px = (rowDraws b x0 k px ^^ (decide (px = x0 + k) && decide (px < 64) && spriteBit b k)) := by
      intro _
      simp only [rowDraws]
      by_cases h : px = x0 + k
      · subst h
        simp
      · have : (px < x0 + (k + 1)) ↔ (px < x0 + k) := by omega
        simp [h, this]
    rw [hstep true]
    simp only [drawColumns]
    by_cases hb : spriteBit b k = true
    · simp only [hb, if_true, drawPixel, Config.fbW, Config.fbH]
      by_cases hin : x0 + k < 64 ∧ y < 32
      · simp only [hin, and_self, if_true]
        rw [pixelAt_togglePixel _ _ _ _ _ hin.1 hin.2 hpy, ih, Bool.xor_assoc]
        congr 1
        by_cases h1 : py = y <;> by_cases h2 : px = x0 + k <;> simp [h1, h2, hin.1]
      · simp only [hin, if_false]
        rw [ih]
        congr 1
        by_cases h1 : py = y
        · have h64 : ¬ x0 + k < 64 := fun h3 => hin ⟨h3, h1 ▸ hpy⟩
          by_cases h2 : px = x0 + k <;> simp [h1, h2, h64]
        · simp [h1]
    · rw [Bool.not_eq_true] at hb
      simp only [hb, Bool.false_eq_true, if_false, Bool.and_false, Bool.xor_false]
      exact ih

/-- A row's collision: some drawn pixel was on. -/
theorem drawColumns_collision (b : Byte) (x0 y : Nat) (acc : Framebuffer × Bool) (k : Nat) :
    (drawColumns b x0 y acc k).2 = true ↔
      acc.2 = true ∨ (y < 32 ∧ ∃ px, rowDraws b x0 k px = true ∧ pixelAt acc.1 px y = true) := by
  induction k with
  | zero =>
    have : ∀ px, rowDraws b x0 0 px = false := by
      intro px
      simp only [rowDraws, Bool.and_eq_false_iff, decide_eq_false_iff_not]
      omega
    simp [drawColumns, this]
  | succ k ih =>
    have hsplit : ∀ px, rowDraws b x0 (k + 1) px = true ↔
        rowDraws b x0 k px = true ∨ (px = x0 + k ∧ px < 64 ∧ spriteBit b k = true) := by
      intro px
      simp only [rowDraws, Bool.and_eq_true, decide_eq_true_eq]
      constructor
      · rintro ⟨⟨⟨h1, h2⟩, h3⟩, h4⟩
        by_cases h : px = x0 + k
        · subst h
          exact .inr ⟨rfl, h1, by simpa using h4⟩
        · exact .inl ⟨⟨⟨h1, h2⟩, by omega⟩, h4⟩
      · rintro (⟨⟨⟨h1, h2⟩, h3⟩, h4⟩ | ⟨rfl, h1, h4⟩)
        · exact ⟨⟨⟨h1, h2⟩, by omega⟩, h4⟩
        · exact ⟨⟨⟨h1, by omega⟩, by omega⟩, by simpa using h4⟩
    simp only [drawColumns]
    by_cases hb : spriteBit b k = true
    · simp only [hb, if_true, drawPixel, Config.fbW, Config.fbH]
      by_cases hin : x0 + k < 64 ∧ y < 32
      · simp only [hin, and_self, if_true, Bool.or_eq_true, ih]
        rw [drawColumns_pixel _ _ _ _ _ _ _ hin.2]
        have hself : rowDraws b x0 k (x0 + k) = false := by
          simp [rowDraws]
        simp only [hself, Bool.and_false, Bool.xor_false, hsplit]
        constructor
        · rintro ((h | ⟨_, px, h1, h2⟩) | h)
          · exact .inl h
          · exact .inr ⟨trivial, px, .inl h1, h2⟩
          · exact .inr ⟨trivial, x0 + k, .inr ⟨rfl, hin.1, hb⟩, h⟩
        · rintro (h | ⟨_, px, (h1 | ⟨rfl, -, -⟩), h2⟩)
          · exact .inl (.inl h)
          · exact .inl (.inr ⟨trivial, px, h1, h2⟩)
          · exact .inr h2
      · simp only [hin, if_false, ih, hsplit]
        constructor
        · rintro (h | ⟨hy, px, h1, h2⟩)
          · exact .inl h
          · exact .inr ⟨hy, px, .inl h1, h2⟩
        · rintro (h | ⟨hy, px, (h1 | ⟨rfl, h3, -⟩), h2⟩)
          · exact .inl h
          · exact .inr ⟨hy, px, h1, h2⟩
          · exact absurd ⟨h3, hy⟩ hin
    · rw [Bool.not_eq_true] at hb
      simp only [hb, Bool.false_eq_true, if_false, and_false, or_false, ih, hsplit]

/-- Each pixel after the sprite's rows below `n`: it toggles when the sprite draws it. -/
theorem drawRows_pixel (s : State) (x0 y0 n px py : Nat) (hpy : py < 32) :
    pixelAt (drawRows s x0 y0 n).1 px py =
      (pixelAt s.fb px py ^^ (decide (y0 ≤ py) && decide (py < y0 + n) && rowDraws (s.readIndexed (py - y0)) x0 8 px)) := by
  induction n with
  | zero =>
    by_cases h : y0 ≤ py
    · have : ¬ py < y0 := by omega
      simp [drawRows, this]
    · simp [drawRows, h]
  | succ n ih =>
    simp only [drawRows, drawColumns_pixel _ _ _ _ _ _ _ hpy, ih, Bool.xor_assoc]
    congr 1
    by_cases h : py = y0 + n
    · subst h
      simp
    · have : (py < y0 + (n + 1)) ↔ (py < y0 + n) := by omega
      simp [h, this]

/-- The collision flag after the sprite's rows below `n`: some drawn pixel was on. -/
theorem drawRows_collision (s : State) (x0 y0 n : Nat) :
    (drawRows s x0 y0 n).2 = true ↔
      ∃ r px, r < n ∧ y0 + r < 32 ∧ rowDraws (s.readIndexed r) x0 8 px = true ∧ pixelAt s.fb px (y0 + r) = true := by
  induction n with
  | zero => simp [drawRows]
  | succ n ih =>
    simp only [drawRows, drawColumns_collision, ih]
    constructor
    · rintro (⟨r, px, hr, h⟩ | ⟨hy, px, h1, h2⟩)
      · exact ⟨r, px, by omega, h⟩
      · rw [drawRows_pixel _ _ _ _ _ _ hy] at h2
        exact ⟨n, px, by omega, hy, h1, by simpa using h2⟩
    · rintro ⟨r, px, hr, hy, h1, h2⟩
      by_cases h : r = n
      · subst h
        refine .inr ⟨hy, px, h1, ?_⟩
        rw [drawRows_pixel _ _ _ _ _ _ hy]
        simpa using h2
      · exact .inl ⟨r, px, by omega, hy, h1, h2⟩

end Sys2Proof.Machine
end

