-- ==== Sys2Proof/Laws/Encoding.lean ====
section
/-! SUPPORT. The fields of a packed word, one lemma per field and format, and the length of the encoder's bytes. -/

namespace Sys2Proof

/-- Concatenation as arithmetic. -/
theorem append_toNat {m n : Nat} (a : BitVec m) (b : BitVec n) : (a ++ b).toNat = a.toNat * 2 ^ n + b.toNat := by
  rw [BitVec.toNat_append, ← Nat.shiftLeft_add_eq_or_of_lt b.isLt, Nat.shiftLeft_eq]

theorem packA_toNat (op : Nibble) (nnn : Addr) : (packA op nnn).toNat = op.toNat * 4096 + nnn.toNat := by
  simp only [packA, append_toNat]
  omega

theorem packB_toNat (op x : Nibble) (kk : Byte) :
    (packB op x kk).toNat = op.toNat * 4096 + x.toNat * 256 + kk.toNat := by
  simp only [packB, append_toNat]
  omega

theorem packC_toNat (op x y n : Nibble) :
    (packC op x y n).toNat = op.toNat * 4096 + x.toNat * 256 + y.toNat * 16 + n.toNat := by
  simp only [packC, append_toNat]
  omega

theorem opField_toNat (w : Word) : (opField w).toNat = w.toNat / 4096 := by
  simp only [opField, BitVec.extractLsb'_toNat, Nat.shiftRight_eq_div_pow]
  omega

theorem nnnField_toNat (w : Word) : (nnnField w).toNat = w.toNat % 4096 := by
  simp [nnnField, BitVec.extractLsb'_toNat]

theorem xField_toNat (w : Word) : (xField w).toNat = w.toNat / 256 % 16 := by
  simp [xField, BitVec.extractLsb'_toNat, Nat.shiftRight_eq_div_pow]

theorem yField_toNat (w : Word) : (yField w).toNat = w.toNat / 16 % 16 := by
  simp [yField, BitVec.extractLsb'_toNat, Nat.shiftRight_eq_div_pow]

theorem kkField_toNat (w : Word) : (kkField w).toNat = w.toNat % 256 := by
  simp [kkField, BitVec.extractLsb'_toNat]

theorem nField_toNat (w : Word) : (nField w).toNat = w.toNat % 16 := by
  simp [nField, BitVec.extractLsb'_toNat]

/-- The fields of format A. -/
theorem fields_packA (op : Nibble) (nnn : Addr) : opField (packA op nnn) = op ∧ nnnField (packA op nnn) = nnn := by
  refine ⟨?_, ?_⟩ <;> apply BitVec.eq_of_toNat_eq
  · rw [opField_toNat, packA_toNat]; omega
  · rw [nnnField_toNat, packA_toNat]; omega

/-- The fields of format B. -/
theorem fields_packB (op x : Nibble) (kk : Byte) :
    opField (packB op x kk) = op ∧ xField (packB op x kk) = x ∧ kkField (packB op x kk) = kk := by
  refine ⟨?_, ?_, ?_⟩ <;> apply BitVec.eq_of_toNat_eq
  · rw [opField_toNat, packB_toNat]; omega
  · rw [xField_toNat, packB_toNat]; omega
  · rw [kkField_toNat, packB_toNat]; omega

/-- The fields of format C. -/
theorem fields_packC (op x y n : Nibble) :
    opField (packC op x y n) = op ∧ xField (packC op x y n) = x ∧ yField (packC op x y n) = y ∧
    nField (packC op x y n) = n := by
  refine ⟨?_, ?_, ?_, ?_⟩ <;> apply BitVec.eq_of_toNat_eq
  · rw [opField_toNat, packC_toNat]; omega
  · rw [xField_toNat, packC_toNat]; omega
  · rw [yField_toNat, packC_toNat]; omega
  · rw [nField_toNat, packC_toNat]; omega

/-- Packing a word's own fields gives the word. -/
theorem packA_fields (w : Word) : packA (opField w) (nnnField w) = w := by
  apply BitVec.eq_of_toNat_eq
  rw [packA_toNat, opField_toNat, nnnField_toNat]; omega

theorem packB_fields (w : Word) : packB (opField w) (xField w) (kkField w) = w := by
  apply BitVec.eq_of_toNat_eq
  rw [packB_toNat, opField_toNat, xField_toNat, kkField_toNat]; omega

theorem packC_fields (w : Word) : packC (opField w) (xField w) (yField w) (nField w) = w := by
  apply BitVec.eq_of_toNat_eq
  rw [packC_toNat, opField_toNat, xField_toNat, yField_toNat, nField_toNat]; omega

/-- An instruction has two bytes (R100). -/
theorem encodeBytes_length (i : Instr) : (encodeBytes i).length = 2 := rfl

end Sys2Proof
end

