-- ==== Sys2Proof/Laws/Memory.lean ====
section
/-! SUPPORT. The laws of memory: what a byte reads after a write, that every memory operation keeps the canonical form,
and that two canonical memories that read alike are equal. -/

namespace Sys2Proof.Machine

theorem Memory.read_erase (m : Memory) (a b : Nat) :
    (m.erase a).read b = if b = a then Memory.unlisted b else m.read b := by
  induction m with
  | nil => simp [Memory.erase, Memory.read]
  | cons c t ih =>
    obtain ⟨k, w⟩ := c
    simp only [Memory.erase]
    split
    · rename_i h
      subst h
      simp only [ih, Memory.read]
      split <;> simp_all
    · simp only [Memory.read, ih]
      split <;> split <;> simp_all

theorem Memory.read_insert (m : Memory) (a : Nat) (v : Byte) (b : Nat) (h : m.erase a = m) :
    (m.insert a v).read b = if b = a then v else m.read b := by
  induction m with
  | nil => simp [Memory.insert, Memory.read]
  | cons c t ih =>
    obtain ⟨k, w⟩ := c
    simp only [Memory.erase] at h
    split at h
    · rename_i hk
      have hlen : ∀ t : Memory, (Memory.erase t a).length ≤ t.length := by
        intro t
        induction t with
        | nil => simp [Memory.erase]
        | cons c t ih => simp only [Memory.erase]; split <;> simp <;> omega
      have := hlen t
      rw [h] at this
      simp at this
    · rename_i hk
      have ht : Memory.erase t a = t := by simpa using h
      simp only [Memory.insert]
      split
      · simp [Memory.read]
      · simp only [Memory.read, ih ht]
        split <;> split <;> simp_all

theorem Memory.erase_erase (m : Memory) (a : Nat) : (m.erase a).erase a = m.erase a := by
  induction m with
  | nil => rfl
  | cons c t ih =>
    simp only [Memory.erase]
    split
    · exact ih
    · rename_i h
      simp [Memory.erase, h, ih]

/-- Reading after a write gives the byte written there, and what was there elsewhere. It needs no canonical form. -/
theorem Memory.read_write (m : Memory) (a : Nat) (v : Byte) (b : Nat) :
    (m.write a v).read b = if b = a then v else m.read b := by
  unfold Memory.write
  split
  · rename_i h
    rw [Memory.read_erase]
    split <;> simp_all
  · rw [Memory.read_insert _ _ _ _ (Memory.erase_erase m a), Memory.read_erase]
    split <;> simp_all

/-- The same on the machine's memory. -/
@[simp] theorem State.readMem_writeMem (s : State) (a : Addr) (v : Byte) (b : Addr) :
    (s.writeMem a v).readMem b = if b = a then v else s.readMem b := by
  simp only [State.readMem, State.writeMem, Memory.read_write, BitVec.toNat_inj]

theorem Memory.wfFrom_mono {lo lo' : Nat} (h : lo' ≤ lo) {m : Memory} (hm : m.wfFrom lo = true) :
    m.wfFrom lo' = true := by
  cases m with
  | nil => rfl
  | cons c t =>
    simp only [Memory.wfFrom, Bool.and_eq_true, decide_eq_true_eq] at hm ⊢
    refine ⟨⟨⟨?_, hm.1.1.2⟩, hm.1.2⟩, hm.2⟩
    omega

theorem Memory.wfFrom_erase {lo : Nat} {m : Memory} (a : Nat) (hm : m.wfFrom lo = true) :
    (m.erase a).wfFrom lo = true := by
  induction m generalizing lo with
  | nil => rfl
  | cons c t ih =>
    simp only [Memory.wfFrom, Bool.and_eq_true, decide_eq_true_eq] at hm
    simp only [Memory.erase]
    split
    · exact Memory.wfFrom_mono (by omega) (ih hm.2)
    · simp only [Memory.wfFrom, Bool.and_eq_true, decide_eq_true_eq]
      exact ⟨hm.1, ih hm.2⟩

theorem Memory.wfFrom_insert {lo a : Nat} {m : Memory} {v : Byte} (hlo : lo ≤ a) (ha : a < Config.memSize)
    (hv : v ≠ Memory.unlisted a) (he : m.erase a = m) (hm : m.wfFrom lo = true) :
    (m.insert a v).wfFrom lo = true := by
  induction m generalizing lo with
  | nil => simp [Memory.insert, Memory.wfFrom, hlo, ha, hv]
  | cons c t ih =>
    obtain ⟨k, w⟩ := c
    have hm' := hm
    simp only [Memory.wfFrom, Bool.and_eq_true, decide_eq_true_eq, bne_iff_ne, ne_eq] at hm
    have hk : a ≠ k := by
      intro h
      subst h
      have hr := Memory.read_erase ((a, w) :: t) a a
      rw [he] at hr
      simp [Memory.read] at hr
      exact hm.1.2 hr
    have ht : Memory.erase t a = t := by simpa [Memory.erase, hk] using he
    simp only [Memory.insert]
    split
    · simp only [Memory.wfFrom, Bool.and_eq_true, decide_eq_true_eq, bne_iff_ne, ne_eq]
      exact ⟨⟨⟨hlo, ha⟩, hv⟩, ⟨⟨by omega, hm.1.1.2⟩, hm.1.2⟩, hm.2⟩
    · simp only [Memory.wfFrom, Bool.and_eq_true, decide_eq_true_eq, bne_iff_ne, ne_eq]
      exact ⟨⟨⟨hm.1.1.1, hm.1.1.2⟩, hm.1.2⟩, ih (by omega) ht hm.2⟩

/-- A write inside the address space keeps the canonical form. -/
theorem Memory.wf_write {m : Memory} (hm : m.wf = true) {a : Nat} (ha : a < Config.memSize) (v : Byte) :
    (m.write a v).wf = true := by
  unfold Memory.write
  split
  · exact Memory.wfFrom_erase a hm
  · rename_i hv
    exact Memory.wfFrom_insert (Nat.zero_le a) ha hv (Memory.erase_erase m a) (Memory.wfFrom_erase a hm)

/-- The empty memory is canonical. -/
theorem Memory.wf_nil : Memory.wf [] = true := rfl

/-- Reset's memory is canonical. -/
theorem State.reset_mem_wf : State.reset.mem.wf = true := rfl

/-- The machine's write keeps the canonical form. -/
theorem State.writeMem_wf {s : State} (hs : s.mem.wf = true) (a : Addr) (v : Byte) : (s.writeMem a v).mem.wf = true :=
  Memory.wf_write hs a.isLt v

/-- A canonical memory reads unlisted below its first possible address. -/
theorem Memory.read_below {lo : Nat} {m : Memory} (hm : m.wfFrom lo = true) {a : Nat} (ha : a < lo) :
    m.read a = Memory.unlisted a := by
  induction m generalizing lo with
  | nil => rfl
  | cons c t ih =>
    obtain ⟨k, w⟩ := c
    simp only [Memory.wfFrom, Bool.and_eq_true, decide_eq_true_eq] at hm
    have hk : a ≠ k := by omega
    simp only [Memory.read, hk, if_false]
    exact ih hm.2 (by omega)

theorem Memory.eq_of_read_from {lo : Nat} {m n : Memory} (hm : m.wfFrom lo = true) (hn : n.wfFrom lo = true)
    (h : ∀ a, m.read a = n.read a) : m = n := by
  induction m generalizing lo n with
  | nil =>
    cases n with
    | nil => rfl
    | cons c t =>
      obtain ⟨k, w⟩ := c
      simp only [Memory.wfFrom, Bool.and_eq_true, bne_iff_ne, ne_eq] at hn
      exact absurd (by simpa [Memory.read] using (h k).symm) hn.1.2
  | cons c t ih =>
    obtain ⟨k, w⟩ := c
    have hm0 := hm
    simp only [Memory.wfFrom, Bool.and_eq_true, decide_eq_true_eq, bne_iff_ne, ne_eq] at hm
    cases n with
    | nil => exact absurd (by simpa [Memory.read] using h k) hm.1.2
    | cons d u =>
      obtain ⟨j, z⟩ := d
      have hn0 := hn
      simp only [Memory.wfFrom, Bool.and_eq_true, decide_eq_true_eq, bne_iff_ne, ne_eq] at hn
      rcases Nat.lt_trichotomy k j with hlt | heq | hgt
      · have hb := Memory.read_below (lo := j) (m := (j, z) :: u) (by
          simp only [Memory.wfFrom, Bool.and_eq_true, decide_eq_true_eq, bne_iff_ne, ne_eq]
          exact ⟨⟨⟨le_refl j, hn.1.1.2⟩, hn.1.2⟩, hn.2⟩) hlt
        have hk := h k
        rw [hb] at hk
        exact absurd (by simpa [Memory.read] using hk) hm.1.2
      · subst heq
        have hz : w = z := by simpa [Memory.read] using h k
        subst hz
        have htail : t = u := ih hm.2 hn.2 (by
          intro a
          by_cases ha : a = k
          · subst ha
            rw [Memory.read_below hm.2 (Nat.lt_succ_self a), Memory.read_below hn.2 (Nat.lt_succ_self a)]
          · simpa [Memory.read, ha] using h a)
        rw [htail]
      · have hb := Memory.read_below (lo := k) (m := (k, w) :: t) (by
          simp only [Memory.wfFrom, Bool.and_eq_true, decide_eq_true_eq, bne_iff_ne, ne_eq]
          exact ⟨⟨⟨le_refl k, hm.1.1.2⟩, hm.1.2⟩, hm.2⟩) hgt
        have hj := h j
        rw [hb] at hj
        exact absurd (by simpa [Memory.read] using hj.symm) hn.1.2

/-- Two canonical memories that read alike at every address are equal data. -/
theorem Memory.eq_of_read {m n : Memory} (hm : m.wf = true) (hn : n.wf = true) (h : ∀ a, m.read a = n.read a) : m = n :=
  Memory.eq_of_read_from hm hn h

end Sys2Proof.Machine
end

