-- ==== Sys2Proof/Laws/Ops.lean ====
section
/-! SUPPORT. One lemma per shared operation that says once everything it can do: how a step ends, push and pop, indexed
stores and loads, the pressed key, the fetch, and the host's operations. -/

namespace Sys2Proof.Machine

/-! ## How a step ends -/

@[simp] theorem complete_eq_next (s t : State) : complete s = .next t ↔ t = s.writeOutcome .advanced := by
  simp [complete, eq_comm]

@[simp] theorem complete_ne_fault (s : State) (f : Fault) : complete s ≠ .fault f := by simp [complete]

@[simp] theorem complete_ne_refused (s : State) (r : Refusal) : complete s ≠ .refused r := by simp [complete]

@[simp] theorem park_eq_next (s t : State) : park s = .next t ↔ t = s.writeOutcome .parked := by
  simp [park, eq_comm]

@[simp] theorem park_ne_fault (s : State) (f : Fault) : park s ≠ .fault f := by simp [park]

@[simp] theorem reportUnknown_eq_next (w : Word) (s t : State) :
    reportUnknown w s = .next t ↔ t = s.writeOutcome (.unknownOpcode w s.instrAddr) := by
  simp [reportUnknown, eq_comm]

@[simp] theorem raise_eq_fault (f g : Fault) : raise f = .fault g ↔ g = f := by simp [raise, eq_comm]

@[simp] theorem raise_ne_next (f : Fault) (t : State) : raise f ≠ .next t := by simp [raise]

/-! ## Call stack -/

/-- Pushing succeeds exactly below 16 occupied slots (R143). -/
theorem State.push_eq_none_iff (s : State) (w : Word) : s.push w = none ↔ s.sp.val = 16 := by
  have := s.sp.isLt
  unfold State.push
  split <;> simp <;> omega

theorem State.push_of_lt (s : State) (w : Word) (h : s.sp.val < 16) :
    s.push w = some ((s.writeStack (s.stack.set s.sp.val w)).writeSp ⟨s.sp.val + 1, by omega⟩) := by
  simp [State.push, h]

/-- Popping succeeds exactly above no occupied slot (R141). -/
theorem State.pop_eq_none_iff (s : State) : s.pop = none ↔ s.sp.val = 0 := by
  unfold State.pop
  split <;> simp <;> omega

theorem State.pop_of_pos (s : State) (h : 0 < s.sp.val) :
    s.pop = some (s.stack[s.sp.val - 1]'(by omega), s.writeSp ⟨s.sp.val - 1, by omega⟩) := by
  simp [State.pop, h]

/-! ## Indexed stores (R207) -/

/-- `maskAddr` is reduction modulo 4096 (R71). -/
theorem maskAddr_toNat (w : Word) : (maskAddr w).toNat = w.toNat % 4096 := by
  simp [maskAddr, BitVec.toNat_setWidth]

theorem State.indexAddr_toNat (s : State) (k : Nat) : (s.indexAddr k).toNat = (s.i.toNat + k) % 4096 := by
  simp only [State.indexAddr, maskAddr_toNat, BitVec.toNat_add, BitVec.toNat_ofNat]
  omega

/-- Two offsets below 4096 apart name different bytes. -/
theorem State.indexAddr_inj (s : State) {j k : Nat} (hj : j < 4096) (hk : k < 4096) :
    s.indexAddr j = s.indexAddr k ↔ j = k := by
  rw [← BitVec.toNat_inj, State.indexAddr_toNat, State.indexAddr_toNat]
  omega

/-- The font region is 0x050 to 0x09F (R78). -/
theorem inFont_iff (a : Addr) : inFont a = true ↔ 0x050 ≤ a.toNat ∧ a.toNat < 0x0A0 := by
  simp [inFont, show Config.fontBase = 0x050 from rfl, show Config.fontSize = 80 from rfl]

/-- No address of the access is in the font exactly when the check finds none. -/
theorem State.fontHit_eq_none_iff (s : State) (n : Nat) :
    s.fontHit n = none ↔ ∀ k, k < n → inFont (s.indexAddr k) = false := by
  simp [State.fontHit, List.find?_eq_none]

/-- The check answers the address of the lowest offset that is in the font. -/
theorem State.fontHit_eq_some_iff (s : State) (n : Nat) (a : Addr) :
    s.fontHit n = some a ↔
      ∃ k, k < n ∧ a = s.indexAddr k ∧ inFont a = true ∧ ∀ j, j < k → inFont (s.indexAddr j) = false := by
  induction n with
  | zero => simp [State.fontHit]
  | succ n ih =>
    have hstep : s.fontHit (n + 1) = (s.fontHit n).or (if inFont (s.indexAddr n) then some (s.indexAddr n) else none) := by
      simp only [State.fontHit, List.range_succ, List.map_append, List.map_cons, List.map_nil, List.find?_append]
      congr 1
      simp only [List.find?_cons, List.find?_nil]
      cases inFont (s.indexAddr n) <;> rfl
    rw [hstep]
    cases hn : s.fontHit n with
    | none =>
      rw [State.fontHit_eq_none_iff] at hn
      simp only [Option.none_or]
      constructor
      · intro h
        split at h
        · rename_i hf
          cases h
          exact ⟨n, by omega, rfl, hf, hn⟩
        · cases h
      · rintro ⟨k, hk, rfl, hf, -⟩
        have : k = n := by
          by_contra hne
          rw [hn k (by omega)] at hf
          cases hf
        subst this
        simp [hf]
    | some b =>
      rw [Option.some_or, ← hn, ih]
      constructor
      · rintro ⟨k, hk, h⟩
        exact ⟨k, by omega, h⟩
      · rintro ⟨k, hk, ha, hf, hlow⟩
        refine ⟨k, ?_, ha, hf, hlow⟩
        by_contra hne
        have hkn : k = n := by omega
        subst hkn
        rw [(State.fontHit_eq_none_iff s k).2 hlow] at hn
        cases hn

theorem State.writeIndexed_fields (s : State) (k : Nat) (bs : List Byte) :
    (s.writeIndexed k bs).v = s.v ∧ (s.writeIndexed k bs).pc = s.pc ∧ (s.writeIndexed k bs).i = s.i ∧
    (s.writeIndexed k bs).sp = s.sp ∧ (s.writeIndexed k bs).stack = s.stack ∧ (s.writeIndexed k bs).dt = s.dt ∧
    (s.writeIndexed k bs).st = s.st ∧ (s.writeIndexed k bs).keys = s.keys ∧ (s.writeIndexed k bs).fb = s.fb ∧
    (s.writeIndexed k bs).outcome = s.outcome ∧ (s.writeIndexed k bs).rndDraws = s.rndDraws := by
  induction bs generalizing s k with
  | nil => simp [State.writeIndexed]
  | cons b bs ih => simpa [State.writeIndexed] using ih (s.writeMem (s.indexAddr k) b) (k + 1)

/-- The registers after an indexed store. -/
theorem State.writeIndexed_readV (s : State) (k : Nat) (bs : List Byte) (z : Reg) :
    (s.writeIndexed k bs).readV z = s.readV z := by
  simp only [State.readV, (State.writeIndexed_fields s k bs).1]

/-- What a byte of memory reads after an indexed store of at most 4096 bytes. -/
theorem State.writeIndexed_readMem (s : State) (k : Nat) (bs : List Byte) (h : k + bs.length ≤ 4096) (a : Addr) :
    (∀ j (hj : j < bs.length), a = s.indexAddr (k + j) → (s.writeIndexed k bs).readMem a = bs[j]) ∧
    ((∀ j, j < bs.length → a ≠ s.indexAddr (k + j)) → (s.writeIndexed k bs).readMem a = s.readMem a) := by
  induction bs generalizing s k with
  | nil => simp [State.writeIndexed]
  | cons b bs ih =>
    simp only [List.length_cons] at h
    have ih' := ih (s.writeMem (s.indexAddr k) b) (k + 1) (by omega)
    simp only [State.writeMem_indexAddr] at ih'
    simp only [State.writeIndexed]
    constructor
    · intro j hj ha
      cases j with
      | zero =>
        simp only [Nat.add_zero] at ha
        rw [ih'.2]
        · simp [ha]
        · intro j hj'
          rw [ha, Ne, State.indexAddr_inj s (by omega) (by omega)]
          omega
      | succ j =>
        simp only [List.length_cons] at hj
        have := ih'.1 j (by omega) (by rw [ha]; congr 1; omega)
        simpa using this
    · intro hne
      rw [ih'.2]
      · have := hne 0 (by simp)
        simp only [Nat.add_zero] at this
        simp [this]
      · intro j hj
        have := hne (j + 1) (by simp; omega)
        rwa [show k + 1 + j = k + (j + 1) by omega]

/-- Everything a store instruction can do: the fault of the lowest offset in the font, or all its bytes written. -/
theorem storeIndexed_cases (word : Word) (bs : List Byte) (s : State) :
    (∃ a, s.fontHit bs.length = some a ∧ storeIndexed word bs s = .fault (.fontWrite word s.instrAddr a)) ∨
    (s.fontHit bs.length = none ∧ storeIndexed word bs s = .next ((s.writeIndexed 0 bs).writeOutcome .advanced)) := by
  unfold storeIndexed
  cases s.fontHit bs.length with
  | none => exact .inr ⟨rfl, rfl⟩
  | some a => exact .inl ⟨a, rfl, rfl⟩

/-! ## Indexed loads (R206) -/

theorem State.loadIndexed_fields (n : Nat) (s : State) :
    (State.loadIndexed n s).pc = s.pc ∧ (State.loadIndexed n s).i = s.i ∧ (State.loadIndexed n s).sp = s.sp ∧
    (State.loadIndexed n s).stack = s.stack ∧ (State.loadIndexed n s).dt = s.dt ∧ (State.loadIndexed n s).st = s.st ∧
    (State.loadIndexed n s).keys = s.keys ∧ (State.loadIndexed n s).fb = s.fb ∧ (State.loadIndexed n s).mem = s.mem ∧
    (State.loadIndexed n s).outcome = s.outcome ∧ (State.loadIndexed n s).rndDraws = s.rndDraws := by
  induction n with
  | zero => simp [State.loadIndexed]
  | succ n ih => simpa [State.loadIndexed] using ih

theorem State.loadIndexed_readIndexed (n : Nat) (s : State) (k : Nat) :
    (State.loadIndexed n s).readIndexed k = s.readIndexed k := by
  have h := State.loadIndexed_fields n s
  simp only [State.readIndexed, State.readMem, State.indexAddr, h.2.1, h.2.2.2.2.2.2.2.2.1]

/-- The registers after an indexed load of `n` bytes. -/
theorem State.loadIndexed_readV (n : Nat) (hn : n ≤ 16) (s : State) (z : Reg) :
    (State.loadIndexed n s).readV z = if z.toNat < n then s.readIndexed z.toNat else s.readV z := by
  induction n with
  | zero => simp [State.loadIndexed]
  | succ n ih =>
    simp only [State.loadIndexed, State.readV_writeV, State.loadIndexed_readIndexed]
    have hz : z = BitVec.ofNat 4 n ↔ z.toNat = n := by
      rw [← BitVec.toNat_inj, BitVec.toNat_ofNat]
      omega
    by_cases h : z.toNat = n
    · rw [if_pos (hz.2 h), if_pos (by omega), h]
    · rw [if_neg (fun e => h (hz.1 e)), ih (by omega)]
      by_cases h' : z.toNat < n
      · rw [if_pos h', if_pos (by omega)]
      · rw [if_neg h', if_neg (by omega)]

/-! ## The pressed key (R266) -/

/-- Every key is looked at. -/
theorem nibble_mem : ∀ k : Nibble, k ∈ (List.range 16).map (BitVec.ofNat 4) := by decide

/-- No key is pressed exactly when none is found. -/
theorem State.firstKey_eq_none_iff (s : State) : s.firstKey = none ↔ ∀ k, s.key k = false := by
  simp only [State.firstKey, List.find?_eq_none]
  exact ⟨fun h k => by simpa using h k (nibble_mem k), fun h k _ => by simp [h k]⟩

/-- The key found is pressed. -/
theorem State.key_of_firstKey {s : State} {k : Nibble} (h : s.firstKey = some k) : s.key k = true :=
  List.find?_some h

/-- No key below the key found is pressed. -/
theorem State.firstKey_lowest {s : State} {k : Nibble} (h : s.firstKey = some k) (j : Nibble) (hj : j.toNat < k.toNat) :
    s.key j = false := by
  obtain ⟨-, as, bs, hl, has⟩ := List.find?_eq_some_iff_append.1 h
  have hsorted : ((List.range 16).map (BitVec.ofNat 4)).Pairwise (fun a b : Nibble => a.toNat < b.toNat) := by decide
  rw [hl, List.pairwise_append] at hsorted
  have hmem : j ∈ as ++ k :: bs := by
    rw [← hl]
    exact nibble_mem j
  rcases List.mem_append.1 hmem with hm | hm
  · simpa using has j hm
  · rcases List.mem_cons.1 hm with rfl | hm'
    · omega
    · have := (List.pairwise_cons.1 hsorted.2.1).1 j hm'
      omega

/-! ## Fetch (R75, R101) -/

theorem wordOfBytes_toNat (hi lo : Byte) : (wordOfBytes hi lo).toNat = hi.toNat * 256 + lo.toNat := by
  simp only [wordOfBytes, BitVec.toNat_append]
  rw [← Nat.shiftLeft_add_eq_or_of_lt lo.isLt, Nat.shiftLeft_eq]

/-! ## Load (R353) -/

theorem State.writeRom_fields (s : State) (j : Nat) (bs : List Byte) :
    (s.writeRom j bs).v = s.v ∧ (s.writeRom j bs).pc = s.pc ∧ (s.writeRom j bs).i = s.i ∧
    (s.writeRom j bs).sp = s.sp ∧ (s.writeRom j bs).stack = s.stack ∧ (s.writeRom j bs).dt = s.dt ∧
    (s.writeRom j bs).st = s.st ∧ (s.writeRom j bs).keys = s.keys ∧ (s.writeRom j bs).fb = s.fb ∧
    (s.writeRom j bs).outcome = s.outcome ∧ (s.writeRom j bs).rndDraws = s.rndDraws := by
  induction bs generalizing s j with
  | nil => simp [State.writeRom]
  | cons b bs ih => simpa [State.writeRom] using ih (s.writeMem (BitVec.ofNat 12 (Config.romBase + j)) b) (j + 1)

/-- What a byte of memory reads after a ROM that fits is copied. -/
theorem State.writeRom_readMem (s : State) (j : Nat) (bs : List Byte) (h : j + bs.length ≤ 3584) (a : Addr) :
    (s.writeRom j bs).readMem a =
      if h : 0x200 + j ≤ a.toNat ∧ a.toNat < 0x200 + j + bs.length then bs[a.toNat - 0x200 - j]'(by omega)
      else s.readMem a := by
  induction bs generalizing s j with
  | nil =>
    rw [dif_neg (by simp only [List.length_nil]; omega)]
    rfl
  | cons b bs ih =>
    simp only [List.length_cons] at h
    simp only [State.writeRom, ih _ (j + 1) (by omega), State.readMem_writeMem]
    have ha : a = BitVec.ofNat 12 (Config.romBase + j) ↔ a.toNat = 0x200 + j := by
      rw [← BitVec.toNat_inj, BitVec.toNat_ofNat, show Config.romBase = 0x200 from rfl]
      omega
    by_cases h1 : a.toNat = 0x200 + j
    · rw [dif_neg (by omega), if_pos (ha.2 h1), dif_pos (by simp only [List.length_cons]; omega)]
      simp [show a.toNat - 0x200 - j = 0 by omega]
    · rw [if_neg (fun e => h1 (ha.1 e))]
      by_cases h2 : 0x200 + (j + 1) ≤ a.toNat ∧ a.toNat < 0x200 + (j + 1) + bs.length
      · rw [dif_pos h2, dif_pos (by simp only [List.length_cons]; omega)]
        have : a.toNat - 0x200 - j = (a.toNat - 0x200 - (j + 1)) + 1 := by omega
        simp only [this, List.getElem_cons_succ]
      · rw [dif_neg h2, dif_neg (by simp only [List.length_cons]; omega)]

end Sys2Proof.Machine
end

