-- ==== Sys2Proof/Laws/Exec.lean ====
section
/-! SUPPORT. Inversion lemmas over every instruction: when `exec` faults, and what it does to memory, with what the memory
operations do to the canonical form and the font; and that a fetch sees the store before it. -/

namespace Sys2Proof.Machine

/-- Everything that faults, and with what (R306 to R308): CALL on a full stack, RET on an empty one, and the two stores
with a target in the font. -/
theorem exec_fault_iff (i : Instr) (s : State) (f : Fault) : exec i s = .fault f ↔
    (∃ n, i = .call n ∧ s.sp.val = 16 ∧ f = .stackOverflow (encode i) s.instrAddr) ∨
    (∃ n, i = .ret n ∧ s.sp.val = 0 ∧ f = .stackUnderflow (encode i) s.instrAddr) ∨
    (∃ x a, i = .ldB x ∧ s.fontHit 3 = some a ∧ f = .fontWrite (encode i) s.instrAddr a) ∨
    (∃ x a, i = .storeRegs x ∧ s.fontHit (x.toNat + 1) = some a ∧ f = .fontWrite (encode i) s.instrAddr a) := by
  cases i
  case ret ign =>
    simp only [exec, execRet]
    cases h : s.pop with
    | none => simp [(State.pop_eq_none_iff s).1 h]
    | some p =>
      have := (State.pop_eq_none_iff s).not.1 (by simp [h])
      simp [complete, show s.sp ≠ 0 by simpa using this]
  case call n =>
    simp only [exec, execCall]
    cases h : s.push s.pc with
    | none => simp [(State.push_eq_none_iff s _).1 h]
    | some p =>
      have := (State.push_eq_none_iff s s.pc).not.1 (by simp [h])
      simp [complete, this]
  case ldVxK x =>
    simp only [exec, execLdVxK]
    cases s.firstKey <;> simp
  case ldB x =>
    simp only [exec, execLdB, storeIndexed, show (bcdDigits (s.readV x)).length = 3 from rfl]
    cases s.fontHit 3 <;> simp
  case storeRegs x =>
    have hlen : (s.regsUpTo x).length = x.toNat + 1 := by simp [State.regsUpTo]
    simp only [exec, execStoreRegs, storeIndexed, hlen]
    cases h : s.fontHit (x.toNat + 1) <;> simp [h]
  all_goals
    simp [exec, execCls, execJp, execSeImm, execSneImm, execSeReg, execLdImm, execAddImm, execSneReg, execLdI,
      execJpV0, execRnd, execDrw, execLdReg, execOrReg, execAndReg, execXorReg, execAddReg, execSub, execShr, execSubn,
      execShl, execSkp, execSknp, execLdVxDt, execLdDtVx, execLdStVx, execAddI, execLdF, execLoadRegs, execUnknown,
      shiftRight, shiftLeft, reportUnknown]

/-- What an instruction that answers a next state does to memory: nothing, or the two stores write at most 16 bytes with
no target in the font. -/
theorem exec_mem_cases {i : Instr} {s t : State} (h : exec i s = .next t) :
    t.mem = s.mem ∨
    ∃ (bs : List Byte) (x : Reg), (i = .ldB x ∨ i = .storeRegs x) ∧ bs.length ≤ 16 ∧ s.fontHit bs.length = none ∧
      t = (s.writeIndexed 0 bs).writeOutcome .advanced := by
  cases i
  case ldB x =>
    simp only [exec, execLdB] at h
    rcases storeIndexed_cases (encode (.ldB x)) (bcdDigits (s.readV x)) s with ⟨a, -, h'⟩ | ⟨h2, h'⟩ <;>
      rw [h'] at h <;> cases h
    exact .inr ⟨_, x, .inl rfl, by simp [bcdDigits], h2, rfl⟩
  case storeRegs x =>
    simp only [exec, execStoreRegs] at h
    rcases storeIndexed_cases (encode (.storeRegs x)) (s.regsUpTo x) s with ⟨a, -, h'⟩ | ⟨h2, h'⟩ <;>
      rw [h'] at h <;> cases h
    exact .inr ⟨_, x, .inr rfl, by simp [State.regsUpTo]; omega, h2, rfl⟩
  case ldVxK x =>
    simp only [exec, execLdVxK] at h
    cases hk : s.firstKey <;> simp [hk] at h <;> subst h <;> simp
  case ret ign =>
    simp only [exec, execRet, State.pop] at h
    split at h
    · simp at h
    · rename_i w u hp
      split at hp <;> simp at hp
      simp at h
      subst h
      simp [← hp.2]
  case call n =>
    simp only [exec, execCall, State.push] at h
    split at h
    · simp at h
    · rename_i u hp
      split at hp <;> simp at hp
      simp at h
      subst h
      simp [← hp]
  case loadRegs x =>
    simp only [exec, execLoadRegs, complete_eq_next] at h
    subst h
    simp [State.loadIndexed_fields]
  all_goals
    simp only [exec, execCls, execJp, execSeImm, execSneImm, execSeReg, execLdImm, execAddImm, execSneReg, execLdI,
      execJpV0, execRnd, execDrw, execLdReg, execOrReg, execAndReg, execXorReg, execAddReg, execSub, execShr, execSubn,
      execShl, execSkp, execSknp, execLdVxDt, execLdDtVx, execLdStVx, execAddI, execLdF, execUnknown, shiftRight,
      shiftLeft, complete_eq_next, reportUnknown_eq_next] at h
    subst h
    simp

/-- An indexed store keeps the canonical form. -/
theorem State.writeIndexed_wf {s : State} (h : s.mem.wf = true) (k : Nat) (bs : List Byte) :
    (s.writeIndexed k bs).mem.wf = true := by
  induction bs generalizing s k with
  | nil => exact h
  | cons b bs ih => exact ih (State.writeMem_wf h _ _) _

/-- Copying a ROM keeps the canonical form. -/
theorem State.writeRom_wf {s : State} (h : s.mem.wf = true) (j : Nat) (bs : List Byte) :
    (s.writeRom j bs).mem.wf = true := by
  induction bs generalizing s j with
  | nil => exact h
  | cons b bs ih => exact ih (State.writeMem_wf h _ _) _

/-- Placing an instruction's word keeps the canonical form. -/
theorem State.placeWord_wf {s : State} (h : s.mem.wf = true) (w : Word) : (s.placeWord w).mem.wf = true :=
  State.writeMem_wf (State.writeMem_wf h _ _) _ _

/-- The font is intact exactly when every byte of its region reads as the font table has it. -/
theorem fontIntact_iff (s : State) :
    FontIntact s ↔ ∀ a : Addr, inFont a = true → s.readMem a = Config.fontBytes.getD (a.toNat - 0x050) 0 := by
  constructor
  · intro h a ha
    rw [inFont_iff] at ha
    have hj : a.toNat - 0x050 < Config.fontSize := by
      rw [show Config.fontSize = 80 from rfl]
      omega
    rw [← h _ hj, State.readMem, show Config.fontBase + (a.toNat - 0x050) = a.toNat by
      rw [show Config.fontBase = 0x050 from rfl]
      omega]
  · intro h j hj
    rw [show Config.fontSize = 80 from rfl] at hj
    have e : (BitVec.ofNat 12 (0x050 + j)).toNat = 0x050 + j := by
      simp only [BitVec.toNat_ofNat]
      omega
    have := h (BitVec.ofNat 12 (0x050 + j)) ((inFont_iff _).2 (by rw [e]; omega))
    rw [State.readMem, e] at this
    simpa [show Config.fontBase = 0x050 from rfl] using this

/-- A byte after an indexed store of at most 4096 bytes is the stored one at a target and the byte before elsewhere. -/
theorem State.writeIndexed_storedAt (s : State) (bs : List Byte) (val : Nat → Nat) (hl : bs.length ≤ 4096)
    (hv : ∀ k (h : k < bs.length), bs[k].toNat = val k) (a : Addr) :
    StoredAt s bs.length val a ((s.writeIndexed 0 bs).readMem a) := by
  obtain ⟨hit, miss⟩ := State.writeIndexed_readMem s 0 bs (by omega) a
  simp only [Nat.zero_add] at hit miss
  exact ⟨fun k hk e => by rw [hit k hk e.symm, hv k hk], fun h => miss fun k hk e => h k hk e.symm⟩

/-- The fetch after an indexed store sees it. -/
theorem fetchSees_writeIndexed (s : State) (bs : List Byte) (val : Nat → Nat) (o : Report) (hl : bs.length ≤ 4096)
    (hv : ∀ k (h : k < bs.length), bs[k].toNat = val k) :
    FetchSees s ((s.writeIndexed 0 bs).writeOutcome o) bs.length val := by
  refine ⟨_, _, ?_, State.writeIndexed_storedAt s bs val hl hv _, State.writeIndexed_storedAt s bs val hl hv _⟩
  rw [fetchWord, wordOfBytes_toNat]
  simp only [State.writeOutcome_readMem, State.writeOutcome_pc, (State.writeIndexed_fields s 0 bs).2.1]

end Sys2Proof.Machine
end

