-- ==== Sys2Proof/Laws/PerInstr.lean ====
section
/-! SUPPORT. Per instruction: its encoding matches its row of spec/opcode_table.json (mask and match), and an unknown
word matches no row that an instruction has. -/

namespace Sys2Proof.Laws.TableRow

/-- The word of a well-formed instruction lies in its own row of the opcode table. -/
def Statement (i : Instr) : Prop :=
  i.wf = true → ∀ r, i.row = some r → encode i &&& r.1 = r.2

theorem nibble_and_ones : ∀ a : Nibble, a &&& 0xF#4 = a := by decide

theorem byte_and_ones : ∀ b : Byte, b &&& 0xFF#8 = b := by decide

theorem packA_mask (op : Nibble) (nnn : Addr) : packA op nnn &&& 0xF000 = packA op 0 := by
  change (op ++ nnn) &&& (0xF#4 ++ 0x000#12) = op ++ 0#12
  rw [BitVec.and_append, nibble_and_ones, BitVec.and_zero]

theorem packB_mask (op x : Nibble) (kk : Byte) : packB op x kk &&& 0xF000 = packB op 0 0 := by
  change ((op ++ x) ++ kk) &&& ((0xF#4 ++ 0x0#4) ++ 0x00#8) = (op ++ 0#4) ++ 0#8
  rw [BitVec.and_append, BitVec.and_append, nibble_and_ones, BitVec.and_zero, BitVec.and_zero]

theorem packB_maskKey (op x : Nibble) (kk : Byte) : packB op x kk &&& 0xF0FF = packB op 0 kk := by
  change ((op ++ x) ++ kk) &&& ((0xF#4 ++ 0x0#4) ++ 0xFF#8) = (op ++ 0#4) ++ kk
  rw [BitVec.and_append, BitVec.and_append, nibble_and_ones, BitVec.and_zero, byte_and_ones]

theorem packC_mask (op x y n : Nibble) : packC op x y n &&& 0xF000 = packC op 0 0 0 := by
  change (((op ++ x) ++ y) ++ n) &&& (((0xF#4 ++ 0x0#4) ++ 0x0#4) ++ 0x0#4) = ((op ++ 0#4) ++ 0#4) ++ 0#4
  rw [BitVec.and_append, BitVec.and_append, BitVec.and_append, nibble_and_ones, BitVec.and_zero, BitVec.and_zero,
    BitVec.and_zero]

theorem packC_maskKey (op x y n : Nibble) : packC op x y n &&& 0xF00F = packC op 0 0 n := by
  change (((op ++ x) ++ y) ++ n) &&& (((0xF#4 ++ 0x0#4) ++ 0x0#4) ++ 0xF#4) = ((op ++ 0#4) ++ 0#4) ++ n
  rw [BitVec.and_append, BitVec.and_append, BitVec.and_append, nibble_and_ones, BitVec.and_zero, BitVec.and_zero,
    nibble_and_ones]

theorem cls (ign : Nibble) : Statement (.cls ign) := by
  intro _ r h
  cases h
  exact packB_maskKey 0x0 ign 0xE0

theorem ret (ign : Nibble) : Statement (.ret ign) := by
  intro _ r h
  cases h
  exact packB_maskKey 0x0 ign 0xEE

theorem jp (nnn : Addr) : Statement (.jp nnn) := by
  intro _ r h
  cases h
  exact packA_mask 0x1 nnn

theorem call (nnn : Addr) : Statement (.call nnn) := by
  intro _ r h
  cases h
  exact packA_mask 0x2 nnn

theorem seImm (x : Reg) (kk : Byte) : Statement (.seImm x kk) := by
  intro _ r h
  cases h
  exact packB_mask 0x3 x kk

theorem sneImm (x : Reg) (kk : Byte) : Statement (.sneImm x kk) := by
  intro _ r h
  cases h
  exact packB_mask 0x4 x kk

theorem seReg (x : Reg) (y : Reg) (ign : Nibble) : Statement (.seReg x y ign) := by
  intro _ r h
  cases h
  exact packC_mask 0x5 x y ign

theorem ldImm (x : Reg) (kk : Byte) : Statement (.ldImm x kk) := by
  intro _ r h
  cases h
  exact packB_mask 0x6 x kk

theorem addImm (x : Reg) (kk : Byte) : Statement (.addImm x kk) := by
  intro _ r h
  cases h
  exact packB_mask 0x7 x kk

theorem sneReg (x : Reg) (y : Reg) (ign : Nibble) : Statement (.sneReg x y ign) := by
  intro _ r h
  cases h
  exact packC_mask 0x9 x y ign

theorem ldI (nnn : Addr) : Statement (.ldI nnn) := by
  intro _ r h
  cases h
  exact packA_mask 0xA nnn

theorem jpV0 (nnn : Addr) : Statement (.jpV0 nnn) := by
  intro _ r h
  cases h
  exact packA_mask 0xB nnn

theorem rnd (x : Reg) (kk : Byte) : Statement (.rnd x kk) := by
  intro _ r h
  cases h
  exact packB_mask 0xC x kk

theorem drw (x : Reg) (y : Reg) (n : Nibble) : Statement (.drw x y n) := by
  intro _ r h
  cases h
  exact packC_mask 0xD x y n

theorem ldReg (x : Reg) (y : Reg) : Statement (.ldReg x y) := by
  intro _ r h
  cases h
  exact packC_maskKey 0x8 x y 0x0

theorem orReg (x : Reg) (y : Reg) : Statement (.orReg x y) := by
  intro _ r h
  cases h
  exact packC_maskKey 0x8 x y 0x1

theorem andReg (x : Reg) (y : Reg) : Statement (.andReg x y) := by
  intro _ r h
  cases h
  exact packC_maskKey 0x8 x y 0x2

theorem xorReg (x : Reg) (y : Reg) : Statement (.xorReg x y) := by
  intro _ r h
  cases h
  exact packC_maskKey 0x8 x y 0x3

theorem addReg (x : Reg) (y : Reg) : Statement (.addReg x y) := by
  intro _ r h
  cases h
  exact packC_maskKey 0x8 x y 0x4

theorem sub (x : Reg) (y : Reg) : Statement (.sub x y) := by
  intro _ r h
  cases h
  exact packC_maskKey 0x8 x y 0x5

theorem shr (x : Reg) (y : Reg) : Statement (.shr x y) := by
  intro _ r h
  cases h
  exact packC_maskKey 0x8 x y 0x6

theorem subn (x : Reg) (y : Reg) : Statement (.subn x y) := by
  intro _ r h
  cases h
  exact packC_maskKey 0x8 x y 0x7

theorem shl (x : Reg) (y : Reg) : Statement (.shl x y) := by
  intro _ r h
  cases h
  exact packC_maskKey 0x8 x y 0xE

theorem skp (x : Reg) : Statement (.skp x) := by
  intro _ r h
  cases h
  exact packB_maskKey 0xE x 0x9E

theorem sknp (x : Reg) : Statement (.sknp x) := by
  intro _ r h
  cases h
  exact packB_maskKey 0xE x 0xA1

theorem ldVxDt (x : Reg) : Statement (.ldVxDt x) := by
  intro _ r h
  cases h
  exact packB_maskKey 0xF x 0x07

theorem ldVxK (x : Reg) : Statement (.ldVxK x) := by
  intro _ r h
  cases h
  exact packB_maskKey 0xF x 0x0A

theorem ldDtVx (x : Reg) : Statement (.ldDtVx x) := by
  intro _ r h
  cases h
  exact packB_maskKey 0xF x 0x15

theorem ldStVx (x : Reg) : Statement (.ldStVx x) := by
  intro _ r h
  cases h
  exact packB_maskKey 0xF x 0x18

theorem addI (x : Reg) : Statement (.addI x) := by
  intro _ r h
  cases h
  exact packB_maskKey 0xF x 0x1E

theorem ldF (x : Reg) : Statement (.ldF x) := by
  intro _ r h
  cases h
  exact packB_maskKey 0xF x 0x29

theorem ldB (x : Reg) : Statement (.ldB x) := by
  intro _ r h
  cases h
  exact packB_maskKey 0xF x 0x33

theorem storeRegs (x : Reg) : Statement (.storeRegs x) := by
  intro _ r h
  cases h
  exact packB_maskKey 0xF x 0x55

theorem loadRegs (x : Reg) : Statement (.loadRegs x) := by
  intro _ r h
  cases h
  exact packB_maskKey 0xF x 0x65

theorem unknown (w : Word) : Statement (.unknown w) := by
  intro _ r h
  cases h

end Sys2Proof.Laws.TableRow
end

