-- ==== Sys2Proof/Tests/Slice0.lean ====
section
/-! SUPPORT. Tests of one step each, expected values from the spec (the vector's name in 95_test_vectors.md, or the rule),
and one named witness for every statement that has hypotheses. -/

namespace Sys2Proof.Tests

open Sys2Proof.Machine

/-! ## Helpers -/

/-- Reset with a word at the program counter and registers set. -/
def start (w : Word) (regs : List (Reg × Byte)) : State :=
  regs.foldl (fun t p => t.writeV p.1 p.2) (State.reset.placeWord w)

/-- Memory bytes set. -/
def poke (s : State) (cells : List (Addr × Byte)) : State := cells.foldl (fun t p => t.writeMem p.1 p.2) s

/-- Keys pressed. -/
def press (s : State) (ks : List Nat) : State := s.setKeys (Vector.ofFn fun k : Fin 16 => ks.contains k.val)

/-- A pixel turned on. -/
def light (s : State) (x y : Nat) : State := s.writeFb (togglePixel s.fb x y)

/-- SP set, with S[0] at a value. -/
def stacked (s : State) (n : Fin 17) (slot0 : Word) : State := (s.writeStack (s.stack.set 0 slot0)).writeSp n

/-- What a test reads from the next state; none on a fault or a refusal. -/
def see {α : Type} (f : State → α) : Result → Option α
  | .next t => some (f t)
  | .fault _ => none
  | .refused _ => none

/-- The fault; none on another answer. -/
def faultOf : Result → Option Fault
  | .fault f => some f
  | .next _ => none
  | .refused _ => none

/-! ## Well-formedness: the one check refuses an ill-formed term (R116) -/

theorem test_wf_refuses_known_word : (Instr.unknown 0x00E0).wf = false := by decide
theorem test_wf_refuses_jump_word : (Instr.unknown 0x1ABC).wf = false := by decide
theorem test_wf_accepts_unknown_word : (Instr.unknown 0x0123).wf = true := by decide

/-! ## Decoding: every constructor from a word written out from R110 to R114 -/

theorem test_decode_cls : decodeWord 0b0000001111100000 = .cls 3 := by decide
theorem test_decode_ret : decodeWord 0b0000000011101110 = .ret 0 := by decide
theorem test_decode_jp : decodeWord 0b0001101010111100 = .jp 0xABC := by decide
theorem test_decode_call : decodeWord 0b0010001100000000 = .call 0x300 := by decide
theorem test_decode_seImm : decodeWord 0b0011001101000010 = .seImm 3 0x42 := by decide
theorem test_decode_sneImm : decodeWord 0b0100001101000010 = .sneImm 3 0x42 := by decide
theorem test_decode_seReg : decodeWord 0b0101000100101111 = .seReg 1 2 15 := by decide
theorem test_decode_ldImm : decodeWord 0b0110010110100111 = .ldImm 5 0xA7 := by decide
theorem test_decode_addImm : decodeWord 0b0111000100000010 = .addImm 1 0x02 := by decide
theorem test_decode_sneReg : decodeWord 0b1001000100100000 = .sneReg 1 2 0 := by decide
theorem test_decode_ldI : decodeWord 0b1010001100000000 = .ldI 0x300 := by decide
theorem test_decode_jpV0 : decodeWord 0b1011111111111111 = .jpV0 0xFFF := by decide
theorem test_decode_rnd : decodeWord 0b1100000000001111 = .rnd 0 0x0F := by decide
theorem test_decode_drw : decodeWord 0b1101000000010010 = .drw 0 1 2 := by decide
theorem test_decode_ldReg : decodeWord 0b1000000100100000 = .ldReg 1 2 := by decide
theorem test_decode_orReg : decodeWord 0b1000000100100001 = .orReg 1 2 := by decide
theorem test_decode_andReg : decodeWord 0b1000000100100010 = .andReg 1 2 := by decide
theorem test_decode_xorReg : decodeWord 0b1000000100100011 = .xorReg 1 2 := by decide
theorem test_decode_addReg : decodeWord 0b1000000100100100 = .addReg 1 2 := by decide
theorem test_decode_sub : decodeWord 0b1000000100100101 = .sub 1 2 := by decide
theorem test_decode_shr : decodeWord 0b1000010001110110 = .shr 4 7 := by decide
theorem test_decode_subn : decodeWord 0b1000000100100111 = .subn 1 2 := by decide
theorem test_decode_shl : decodeWord 0b1000010000001110 = .shl 4 0 := by decide
theorem test_decode_skp : decodeWord 0b1110001010011110 = .skp 2 := by decide
theorem test_decode_sknp : decodeWord 0b1110001010100001 = .sknp 2 := by decide
theorem test_decode_ldVxDt : decodeWord 0b1111001100000111 = .ldVxDt 3 := by decide
theorem test_decode_ldVxK : decodeWord 0b1111000000001010 = .ldVxK 0 := by decide
theorem test_decode_ldDtVx : decodeWord 0b1111010000010101 = .ldDtVx 4 := by decide
theorem test_decode_ldStVx : decodeWord 0b1111010000011000 = .ldStVx 4 := by decide
theorem test_decode_addI : decodeWord 0b1111001000011110 = .addI 2 := by decide
theorem test_decode_ldF : decodeWord 0b1111001100101001 = .ldF 3 := by decide
theorem test_decode_ldB : decodeWord 0b1111010100110011 = .ldB 5 := by decide
theorem test_decode_storeRegs : decodeWord 0b1111000101010101 = .storeRegs 1 := by decide
theorem test_decode_loadRegs : decodeWord 0b1111000101100101 = .loadRegs 1 := by decide
/-- UN-2, UN-3, UN-5, UN-6, UN-8, UN-11: unknown words of the four keyed families. -/
theorem test_decode_unknown :
    [0x0123, 0x00E1, 0x8008, 0x800D, 0xE09F, 0xF066].map (fun w => decodeWord w == .unknown w) =
      [true, true, true, true, true, true] := by decide
/-- R75: the byte at the lower address is the high byte. R100: one byte holds no instruction. -/
theorem test_decode_bytes :
    decode [0x65, 0xA7, 0x12] = .ok (.ldImm 5 0xA7, [0x12]) ∧ decode [0x65] = .error .truncated := by decide
theorem test_decodeTableWord : decodeTableWord 16 0xF155 = some (.storeRegs 1) ∧ decodeTableWord 17 0 = none := by decide
/-- R121: ignored bits assemble to 0. -/
theorem test_assemble : assemble (.shr 4 7) = 0x8406 ∧ assemble (.seReg 1 2 15) = 0x5120 := by decide

/-! ## Fetch and step -/

/-- FL-21: pc = 10FE fetches from M[0FE] and M[0FF]. -/
theorem test_fetch_masks_pc :
    fetchInstr (poke (State.reset.writePc 0x10FE) [(0x0FE, 0x13), (0x0FF, 0x00)]) = .jp 0x300 := by decide
/-- R77: a fetch at 0xFFF reads its second byte from 0x000. -/
theorem test_fetch_wraps :
    fetchInstr (poke (State.reset.writePc 0x0FFF) [(0xFFF, 0x13), (0x000, 0x45)]) = .jp 0x345 := by decide
/-- The word placed where the next step fetches is the instruction that runs. -/
theorem test_withFetchWord :
    see (fun t => (t.readV 5, t.pc)) (step (State.reset.withFetchWord 16 0x65A7)) = some (0xA7, 0x0202) := by decide
/-- UN-1, R357. -/
theorem test_step_reset :
    see (fun t => (t.pc, t.outcome)) (step State.reset) = some (0x0202, .unknownOpcode 0x0000 0x0200) := by decide

/-! ## Control flow (FL vectors) -/

/-- FL-1. -/
theorem test_jp : see (·.pc) (step (start 0x1ABC [])) = some 0x0ABC := by decide
/-- FL-4: the 16th nested call is allowed. -/
theorem test_call_last_slot :
    see (fun t => (t.pc, t.sp, t.stack[15])) (step (stacked (start 0x2300 []) 15 0)) = some (0x0300, 16, 0x0202) := by
  decide
/-- FL-5. -/
theorem test_call_overflow :
    faultOf (step (stacked (start 0x2300 []) 16 0)) = some (.stackOverflow 0x2300 0x0200) := by decide
/-- FL-6, FL-8: bits 11:8 are ignored and the slot is not cleared. -/
theorem test_ret :
    see (fun t => (t.pc, t.sp, t.stack[0])) (step (stacked (start 0x0FEE []) 1 0x0202)) = some (0x0202, 0, 0x0202) := by
  decide
/-- FL-7. -/
theorem test_ret_underflow : faultOf (step (start 0x00EE [])) = some (.stackUnderflow 0x00EE 0x0200) := by decide
/-- FL-9, FL-10. -/
theorem test_seImm :
    see (·.pc) (step (start 0x3342 [(3, 0x42)])) = some 0x0204 ∧
    see (·.pc) (step (start 0x3342 [(3, 0x41)])) = some 0x0202 := by decide
/-- FL-19: the advance wraps modulo 2^16. -/
theorem test_seImm_wraps :
    see (·.pc) (step (((State.reset.writePc 0xFFFE).placeWord 0x3342).writeV 3 0x42)) = some 0x0002 := by decide
/-- FL-11, FL-12. -/
theorem test_sneImm :
    see (·.pc) (step (start 0x4342 [(3, 0x41)])) = some 0x0204 ∧
    see (·.pc) (step (start 0x4342 [(3, 0x42)])) = some 0x0202 := by decide
/-- FL-14. -/
theorem test_seReg : see (·.pc) (step (start 0x512F [(1, 7), (2, 7)])) = some 0x0204 := by decide
/-- FL-15, FL-16. -/
theorem test_sneReg :
    see (·.pc) (step (start 0x9120 [(1, 7), (2, 8)])) = some 0x0204 ∧
    see (·.pc) (step (start 0x9120 [(1, 7), (2, 7)])) = some 0x0202 := by decide
/-- FL-18: not masked. -/
theorem test_jpV0 : see (·.pc) (step (start 0xBFFF [(0, 0xFF)])) = some 0x10FE := by decide

/-! ## Register loads and the ALU (AL vectors) -/

/-- AL-2. -/
theorem test_ldImm_vf : see (fun t => (t.readV 15, t.pc)) (step (start 0x6F12 [])) = some (0x12, 0x0202) := by decide
/-- AL-3. -/
theorem test_addImm : see (fun t => (t.readV 1, t.readV 15)) (step (start 0x7102 [(1, 0xFF), (15, 0x77)])) = some (0x01, 0x77) := by
  decide
/-- AL-6. -/
theorem test_ldReg : see (·.readV 1) (step (start 0x8120 [(2, 0x33)])) = some 0x33 := by decide
/-- AL-7. -/
theorem test_orReg : see (fun t => (t.readV 1, t.readV 15)) (step (start 0x8121 [(1, 0xF0), (2, 0x0F), (15, 5)])) = some (0xFF, 5) := by
  decide
/-- AL-8. -/
theorem test_andReg : see (fun t => (t.readV 1, t.readV 15)) (step (start 0x8122 [(1, 0xF0), (2, 0x3C), (15, 5)])) = some (0x30, 5) := by
  decide
/-- AL-9. -/
theorem test_xorReg : see (fun t => (t.readV 1, t.readV 15)) (step (start 0x8123 [(1, 0xF0), (2, 0x3C), (15, 5)])) = some (0xCC, 5) := by
  decide
/-- AL-11, AL-12. -/
theorem test_addReg_carry :
    see (fun t => (t.readV 1, t.readV 15)) (step (start 0x8124 [(1, 0xFE), (2, 1)])) = some (0xFF, 0) ∧
    see (fun t => (t.readV 1, t.readV 15)) (step (start 0x8124 [(1, 0xFF), (2, 1)])) = some (0x00, 1) := by decide
/-- AL-15, AL-16: x = 15 keeps the result, y = 15 reads the old VF. -/
theorem test_addReg_vf :
    see (·.readV 15) (step (start 0x8F24 [(15, 0xFF), (2, 1)])) = some 0x00 ∧
    see (fun t => (t.readV 1, t.readV 15)) (step (start 0x81F4 [(1, 1), (15, 5)])) = some (6, 0) := by decide
/-- AL-18, AL-19: the wrap, and the strict test. -/
theorem test_sub :
    see (fun t => (t.readV 1, t.readV 15)) (step (start 0x8125 [(1, 3), (2, 5)])) = some (0xFE, 0) ∧
    see (fun t => (t.readV 1, t.readV 15)) (step (start 0x8125 [(1, 7), (2, 7)])) = some (0, 0) := by decide
/-- AL-21: y = 15 subtracts the old VF. -/
theorem test_sub_vf : see (fun t => (t.readV 1, t.readV 15)) (step (start 0x81F5 [(1, 0x10), (15, 1)])) = some (0x0F, 1) := by
  decide
/-- AL-24, AL-25. -/
theorem test_shr :
    see (fun t => (t.readV 4, t.readV 15)) (step (start 0x8476 [(4, 0x80), (7, 3)])) = some (0x40, 0) ∧
    see (·.readV 15) (step (start 0x8F06 [(15, 3)])) = some 1 := by decide
/-- AL-24 in the compatibility mode. -/
theorem test_shr_compatibility :
    see (fun t => (t.readV 4, t.readV 15)) (shiftRight true 4 7 (start 0x8476 [(4, 0x80), (7, 3)])) = some (1, 1) := by
  decide
/-- AL-26, AL-28. -/
theorem test_subn :
    see (fun t => (t.readV 1, t.readV 15)) (step (start 0x8127 [(1, 3), (2, 5)])) = some (2, 1) ∧
    see (fun t => (t.readV 1, t.readV 15)) (step (start 0x8127 [(1, 9), (2, 9)])) = some (0, 0) := by decide
/-- AL-29, AL-31. -/
theorem test_shl :
    see (fun t => (t.readV 4, t.readV 15)) (step (start 0x840E [(4, 0x81)])) = some (2, 1) ∧
    see (·.readV 15) (step (start 0x8F0E [(15, 0x81)])) = some 2 := by decide
/-- AL-33: one byte is drawn although kk is 0. -/
theorem test_rnd_draws : see (fun t => (t.rndDraws, t.pc)) (step (start 0xC000 [(0, 0x33)])) = some (1, 0x0202) := by decide

/-! ## Index and memory (IM vectors) -/

/-- IM-1. -/
theorem test_ldI : see (·.i) (step (start 0xA300 [])) = some 0x0300 := by decide
/-- IM-3, IM-4. -/
theorem test_addI :
    see (·.i) (step ((start 0xF21E [(2, 1)]).writeI 0x0FFF)) = some 0x1000 ∧
    see (·.i) (step ((start 0xF21E [(2, 1)]).writeI 0xFFFF)) = some 0x0000 := by decide
/-- IM-7, IM-9. -/
theorem test_ldF :
    see (·.i) (step (start 0xF329 [(3, 0x0F)])) = some 0x009B ∧
    see (·.i) (step (start 0xF329 [(3, 0xFF)])) = some 0x054B := by decide
/-- IM-13: the address wraps. -/
theorem test_ldB :
    see (fun t => (t.readMem 0xFFE, t.readMem 0xFFF, t.readMem 0x000)) (step ((start 0xF533 [(5, 0x9C)]).writeI 0x0FFE)) =
      some (1, 5, 6) := by decide
/-- IM-14: the last of three targets is in the font. -/
theorem test_ldB_font :
    faultOf (step ((start 0xF533 [(5, 0x7B)]).writeI 0x004E)) = some (.fontWrite 0xF533 0x0200 0x050) := by decide
/-- IM-17. -/
theorem test_storeRegs :
    see (fun t => (t.readMem 0xFFF, t.readMem 0x000, t.i)) (step ((start 0xF155 [(0, 0xAA), (1, 0xBB)]).writeI 0x0FFF)) =
      some (0xAA, 0xBB, 0x0FFF) := by decide
/-- IM-19: the address is masked before the check. -/
theorem test_storeRegs_font :
    faultOf (step ((start 0xF055 [(0, 1)]).writeI 0x1050)) = some (.fontWrite 0xF055 0x0200 0x050) := by decide
/-- IM-22: reading the font is allowed. -/
theorem test_loadRegs_font :
    see (fun t => (t.readV 0, t.readV 1, t.readV 4, t.readV 5)) (step ((start 0xF465 [(5, 9)]).writeI 0x0050)) =
      some (0xF0, 0x90, 0xF0, 9) := by decide
/-- R206: x = 15 loads VF last, from the sixteenth byte. -/
theorem test_loadRegs_vf :
    see (fun t => (t.readV 15, t.i)) (step (poke ((start 0xFF65 []).writeI 0x0310) [(0x31F, 0x10)])) =
      some (0x10, 0x0310) := by decide
/-- R44: the first and the last byte of the font, and the bytes beside it. -/
theorem test_reset_font :
    [0x04F, 0x050, 0x052, 0x09B, 0x09F, 0x0A0].map State.reset.readMem = [0, 0xF0, 0x90, 0xF0, 0x80, 0] := by decide
/-- A write of what an unlisted address reads as leaves no entry. -/
theorem test_write_canonical :
    (poke State.reset [(0x300, 1), (0x2FF, 2), (0x300, 0)]).mem = [(0x2FF, 2)] := by decide

/-! ## Framebuffer (DR vectors) -/

/-- DR-2. -/
theorem test_cls : see (fun t => pixelAt t.fb 5 5) (step (light (start 0x03E0 []) 5 5)) = some false := by decide
/-- DR-4: the pixel that was on goes off and VF is 1. -/
theorem test_drw_collision :
    see (fun t => (t.fb[0], t.readV 15)) (step (light ((poke (start 0xD011 []) [(0x300, 0xFF)]).writeI 0x300) 0 0)) =
      some (0xFE#64, 1) := by decide
/-- DR-6: the pixels past the right and bottom edges are clipped. -/
theorem test_drw_clip :
    see (fun t => (t.fb[31], t.fb[0], t.readV 15))
      (step ((poke (start 0xD012 [(0, 0x3F), (1, 0x1F)]) [(0x300, 0xC0), (0x301, 0xC0)]).writeI 0x300)) =
      some (0x8000000000000000#64, 0, 0) := by decide
/-- DR-10: x = 15 takes the column from the old VF. -/
theorem test_drw_old_vf :
    see (fun t => (pixelAt t.fb 5 2, t.readV 15)) (step ((poke (start 0xDF11 [(15, 5), (1, 2)]) [(0x300, 0x80)]).writeI 0x300)) =
      some (true, 0) := by decide

/-! ## Keys and timers (TK vectors) -/

/-- TK-5, TK-2. -/
theorem test_skp :
    see (·.pc) (step (press (start 0xE29E [(2, 0x15)]) [5])) = some 0x0204 ∧
    see (·.pc) (step (start 0xE29E [(2, 5)])) = some 0x0202 := by decide
/-- TK-3, TK-4. -/
theorem test_sknp :
    see (·.pc) (step (press (start 0xE2A1 [(2, 5)]) [5])) = some 0x0202 ∧
    see (·.pc) (step (start 0xE2A1 [(2, 5)])) = some 0x0204 := by decide
/-- TK-6. -/
theorem test_ldVxDt : see (fun t => (t.readV 3, t.dt)) (step ((start 0xF307 []).writeDt 0x3C)) = some (0x3C, 0x3C) := by decide
/-- TK-7. -/
theorem test_ldVxK_lowest :
    see (fun t => (t.readV 0, t.pc, t.outcome)) (step (press (start 0xF00A []) [9, 3])) = some (3, 0x0202, .advanced) := by
  decide
/-- TK-8. -/
theorem test_ldVxK_parks :
    see (fun t => (t.pc, t.outcome)) (step (start 0xF00A [])) = some (0x0200, .parked) := by decide
/-- TK-10. -/
theorem test_ldDtVx : see (·.dt) (step (start 0xF415 [(4, 0x3C)])) = some 0x3C := by decide
/-- TK-11. -/
theorem test_ldStVx : see (fun t => (t.st, t.soundActive)) (step (start 0xF418 [(4, 1)])) = some (1, true) := by decide
/-- TK-16, TK-14. -/
theorem test_tick :
    ((((start 0 []).writeDt 0xFF).writeSt 2).tick.dt = 0xFE) ∧ (((start 0 []).writeDt 0xFF).writeSt 2).tick.st = 1 ∧
    State.reset.tick.dt = 0 := by decide

/-! ## Unknown words and sessions (UN and LD vectors) -/

/-- UN-11. -/
theorem test_unknown :
    see (fun t => (t.pc, t.outcome)) (step (start 0xF066 [])) = some (0x0202, .unknownOpcode 0xF066 0x0200) := by decide
/-- LD-4: Load after a Step is refused. -/
theorem test_load_after_step :
    ((Session.start.perform .step).2.perform (.load [0x12, 0x00])).1 = .refused .loadAfterStep := by decide
/-- The boot order: Reset, Load, Step (R356). -/
theorem test_boot :
    (((Session.unbuilt.perform .reset).2.perform (.load [0x12, 0x00])).2.perform .step).1 = .stepped (.reported .advanced) := by
  decide
/-- R301: a fault's code. -/
theorem test_fault_code : (StepOutcome.faulted (.fontWrite 0xF533 0x0200 0x050)).code = 5 := by decide
/-- R120. -/
theorem test_text : (Instr.drw 10 1 2).text = some "DRW VA,V1,0x2" := by decide

/-! ## Witnesses: states and operands that meet the hypotheses of each statement that has some -/

theorem witness_DecodeOfEncode : (Instr.unknown 0xF0FF).wf = true ∧ (Instr.drw 15 15 15).wf = true := by decide

theorem witness_DecodeFollowsTable : (Instr.skp 15).row = some (0xF0FF, 0xE09E) ∧ unknownWord 0x0000 = true := by decide

theorem witness_StepRunsDecodedInstruction :
    (Instr.ldImm 5 0xA7).wf = true ∧
    decode [(start 0x65A7 []).readMem (maskAddr (start 0x65A7 []).pc),
      (start 0x65A7 []).readMem (maskAddr ((start 0x65A7 []).pc + 1))] = .ok (.ldImm 5 0xA7, []) := by decide

theorem witness_StackFaultCauses :
    fetchInstr (stacked (start 0x2300 []) 16 0) = .call 0x300 ∧ (stacked (start 0x2300 []) 16 0).sp = 16 ∧
    fetchInstr (start 0x0FEE []) = .ret 0xF ∧ (start 0x0FEE []).sp = 0 := by decide

/-- The two ends of the font region. -/
theorem witness_FontFaultCauses :
    faultOf (step ((start 0xF533 []).writeI 0x004E)) = some (.fontWrite 0xF533 0x0200 0x050) ∧
    faultOf (step ((start 0xF055 []).writeI 0x009F)) = some (.fontWrite 0xF055 0x0200 0x09F) := by decide

theorem witness_StepOutcomes :
    see (·.outcome) (step (start 0xF00A [])) = some .parked ∧
    see (·.outcome) (step (press (start 0xF00A []) [15])) = some .advanced ∧
    see (·.outcome) (step State.reset) = some (.unknownOpcode 0x0000 0x0200) := by decide

theorem reset_font_intact : FontIntact State.reset := by
  unfold FontIntact
  decide

theorem witness_StepKeepsInvariant :
    State.reset.Inv ∧ see (·.pc) (step State.reset) = some 0x0202 :=
  ⟨⟨rfl, reset_font_intact⟩, by decide⟩

theorem witness_HostOperationsKeepInvariant : Session.unbuilt.Inv ∧ Session.start.Inv :=
  ⟨trivial, rfl, reset_font_intact⟩

/-- Below and at the bound of each clause. -/
theorem witness_ReturnPopsTheStack :
    0 < (stacked State.reset 1 0x0202).sp.val ∧ 0 < (stacked State.reset 16 0x0202).sp.val ∧ State.reset.sp.val = 0 ∧
    fetchInstr (start 0x00EE []) = .ret 0 ∧ (start 0x00EE []).sp.val = 0 := by decide

theorem witness_CallPushesReturnAddress :
    State.reset.sp.val < 16 ∧ (stacked State.reset 15 0).sp.val < 16 ∧ (stacked State.reset 16 0).sp.val = 16 ∧
    fetchInstr (stacked (start 0x2300 []) 16 0) = .call 0x300 := by decide

/-- The state after a CALL is the one that RET runs in. -/
theorem witness_CallThenReturnRestoresPc :
    see (fun t => (t.sp, t.stack[0])) (exec (.call 0x300) (State.reset.writePc 0x0202)) = some (1, 0x0202) := by decide

/-- x = 14 is not the flag register, and x = 15 is. -/
theorem witness_flag_clause : (14 : Reg) ≠ 15 ∧ ¬(15 : Reg) ≠ 15 := by decide

/-- The targets end just below the font, and start just above it. -/
theorem witness_BcdStoresThreeDigits :
    (∀ k, k < 3 → inFont ((State.reset.writeI 0x004D).indexAddr k) = false) ∧
    (∀ k, k < 3 → inFont ((State.reset.writeI 0x00A0).indexAddr k) = false) := by decide

theorem witness_StoreRegistersWritesMemory :
    (∀ k, k ≤ (15 : Reg).toNat → inFont ((State.reset.writeI 0x00A0).indexAddr k) = false) ∧
    (∀ k, k ≤ (0 : Reg).toNat → inFont ((State.reset.writeI 0x004F).indexAddr k) = false) := by decide

/-- Offset 2 is the first in the font, for both stores, also in a session's core that fetches each. -/
theorem witness_StoreIntoFontFaults :
    inFont ((State.reset.writeI 0x004E).indexAddr 2) = true ∧
    (∀ j, j < 2 → inFont ((State.reset.writeI 0x004E).indexAddr j) = false) ∧ 2 < 3 ∧ 2 ≤ (2 : Reg).toNat ∧
    fetchInstr ((start 0xF233 []).writeI 0x004E) = .ldB 2 ∧ inFont (((start 0xF233 []).writeI 0x004E).indexAddr 2) = true ∧
    fetchInstr ((start 0xF255 []).writeI 0x004E) = .storeRegs 2 ∧
    inFont (((start 0xF255 []).writeI 0x004E).indexAddr 2) = true := by decide

/-- The first and the last register of a load, and the first beyond it. -/
theorem witness_LoadRegistersReadsMemory :
    (0 : Reg).toNat ≤ (14 : Reg).toNat ∧ (14 : Reg).toNat ≤ (14 : Reg).toNat ∧ (14 : Reg).toNat < (15 : Reg).toNat := by
  decide

/-- The targets of three bytes at 0x1201 meet the fetch at 0x0200 in its second byte only, and those of sixteen at 0x11F1
in its first byte only; no target is in the font. -/
theorem witness_StoreIsSeenByNextFetch :
    (∀ k, k < 3 → inFont ((State.reset.writeI 0x1201).indexAddr k) = false) ∧
    (State.reset.writeI 0x1201).indexAddr 0 = maskAddr (State.reset.pc + 1) ∧
    (∀ k, k < 3 → (State.reset.writeI 0x1201).indexAddr k ≠ maskAddr State.reset.pc) ∧
    (∀ k, k ≤ (15 : Reg).toNat → inFont ((State.reset.writeI 0x11F1).indexAddr k) = false) ∧
    (State.reset.writeI 0x11F1).indexAddr 15 = maskAddr State.reset.pc ∧
    (∀ k, k < 16 → (State.reset.writeI 0x11F1).indexAddr k ≠ maskAddr (State.reset.pc + 1)) := by
  decide

/-- The four corners' bounds, and a drawn sprite bit on the last pixel: of an on pixel for the collision, and of an off
one for none. -/
theorem witness_DrawTogglesSpritePixels :
    63 < 64 ∧ 31 < 32 ∧
    SpriteDraws ((poke State.reset [(0x300, 0x80)]).writeI 0x300) 63 31 1 0 0 ∧
    pixelAt (light State.reset 63 31).fb 63 31 = true ∧ pixelAt State.reset.fb 63 31 = false := by
  unfold SpriteDraws
  decide

/-- Two draws of one set bit at one position: on a pixel that was off, the second naming V0 where the first named VF; and
on a pixel that was on, where the second draw meets no on pixel. -/
theorem witness_DrawingTwiceRestoresPixels :
    see (fun t => ((t.readV 0).toNat % 64, (t.readV 1).toNat % 32, see (·.readV 15) (exec (.drw 0 1 1) t)))
      (exec (.drw 15 1 1) ((poke State.reset [(0x300, 0x80)]).writeI 0x300)) = some (0, 0, some 1) ∧
    see (fun t => ((t.readV 0).toNat % 64, (t.readV 1).toNat % 32, see (·.readV 15) (exec (.drw 0 1 1) t)))
      (exec (.drw 0 1 1) (light ((poke State.reset [(0x300, 0x80)]).writeI 0x300) 0 0)) = some (0, 0, some 0) := by decide

theorem witness_SkipsOnKeys : (5 : Nibble).toNat = ((State.reset.writeV 2 0x15).readV 2).toNat % 16 := by decide

theorem witness_KeyWaitTakesLowestKeyOrParks :
    (press State.reset [15]).key 15 = true ∧ (∀ j : Nibble, j.toNat < (15 : Nibble).toNat → (press State.reset [15]).key j = false) ∧
    (press State.reset [0]).key 0 = true ∧ (∀ k, State.reset.key k = false) := by decide

theorem witness_ParkedStepChangesNothing :
    fetchInstr (start 0xF00A []) = .ldVxK 0 ∧ ∀ k, (start 0xF00A []).key k = false := by decide

theorem witness_UnknownWordIsReportedNoOp : unknownWord (fetchWord State.reset) = true := by decide

theorem witness_FlagRegisterWriters :
    see (·.readV 15) (exec (.addReg 1 2) (start 0 [(1, 0xFF), (2, 1)])) = some 1 ∧ (start 0 [(1, 0xFF), (2, 1)]).readV 15 = 0 := by
  decide

/-- For each part an instruction that changes it. -/
theorem witness_EachPartHasItsWriters :
    see (·.i) (exec (.ldI 1) State.reset) = some 1 ∧ see (·.sp) (exec (.call 0) State.reset) = some 1 ∧
    see (fun t => t.stack[0]) (exec (.call 0) State.reset) = some 0x0200 ∧
    see (·.dt) (exec (.ldDtVx 1) (start 0 [(1, 2)])) = some 2 ∧ see (·.st) (exec (.ldStVx 1) (start 0 [(1, 2)])) = some 2 ∧
    see (fun t => pixelAt t.fb 0 0) (exec (.cls 0) (light State.reset 0 0)) = some false ∧
    see (fun t => t.readMem 0x302) (exec (.ldB 1) ((start 0 [(1, 2)]).writeI 0x300)) = some 2 ∧
    see (·.rndDraws) (exec (.rnd 0 0) State.reset) = some 1 := by decide

theorem witness_SoundTimerIsNeverRead :
    see (·.pc) (step (start 0xF307 [])) = some 0x0202 ∧
    faultOf (step (start 0x00EE [])) = some (.stackUnderflow 0x00EE 0x0200) := by decide

/-- The longest ROM that fits, and one byte more. -/
theorem witness_LoadCopiesRomOrRejects :
    (List.replicate 3584 (0 : Byte)).length ≤ 3584 ∧ 3584 < (List.replicate 3585 (0 : Byte)).length ∧
    inFont 0x050 = true ∧ inFont 0x09F = true := by
  simp only [List.length_replicate]
  decide

/-- A session before and after its first Step, which faults. -/
theorem witness_LoadOnlyBeforeFirstStep :
    ({ core := start 0x00EE [], stepped := false, record := [] } : Run).stepped = false ∧
    ({ core := start 0x00EE [], stepped := false, record := [] } : Run).step.2.stepped = true ∧ Op.tick ≠ .step := by decide

theorem witness_FaultLeavesCoreUnchanged_and_FaultRepeatsForEver :
    faultOf (step ({ core := start 0x00EE [], stepped := false, record := [] } : Run).core) =
      some (.stackUnderflow 0x00EE 0x0200) := by decide

theorem witness_RecordIsNeverCleared :
    StepOutcome.faulted (.stackUnderflow 0x00EE 0x0200) ∈
      ({ core := start 0x00EE [], stepped := false, record := [] } : Run).step.2.record ∧
    unknownWord (fetchWord State.reset) = true := by decide

theorem witness_OutputsShowSoundAndPixels : 63 < 64 ∧ 31 < 32 ∧ 31 * 64 + 63 = 2047 := by decide

end Sys2Proof.Tests
end

section
/-! PROOFS. What a step leaves unchanged, composed from what each of its updates leaves unchanged (R50). -/

namespace Sys2Proof.Machine

theorem Part.Same.refl (p : Part) (s : State) : p.Same s s := by
  cases p with
  | regs | mem => exact fun _ => rfl
  | _ => rfl

theorem Part.Same.trans {p : Part} {s t u : State} (hst : p.Same s t) (htu : p.Same t u) : p.Same s u := by
  cases p with
  | regs | mem => exact fun a => (htu a).trans (hst a)
  | _ => exact Eq.trans htu hst

theorem KeepsBut.refl (ps : List Part) (s : State) : KeepsBut ps s s := fun p _ => Part.Same.refl p s

/-- Two updates in a row change at most what one of them changes. -/
theorem KeepsBut.trans {ps qs : List Part} {s t u : State} (hst : KeepsBut ps s t) (htu : KeepsBut qs t u) :
    KeepsBut (ps ++ qs) s u := by
  intro p hp
  rw [List.mem_append, not_or] at hp
  exact (hst p hp.1).trans (htu p hp.2)

theorem State.writePc_keepsBut (s : State) (w : Word) : KeepsBut [.pc] s (s.writePc w) := by
  intro p hp
  cases p with
  | pc => simp at hp
  | _ => simp [Part.Same]

theorem State.writeOutcome_keepsBut (s : State) (o : Report) : KeepsBut [.outcome] s (s.writeOutcome o) := by
  intro p hp
  cases p with
  | outcome => simp at hp
  | _ => simp [Part.Same]

theorem State.skipIf_keepsBut (s : State) (c : Bool) : KeepsBut [.pc] s (s.skipIf c) := by
  cases c with
  | true => exact s.writePc_keepsBut (s.pc + 2)
  | false => exact KeepsBut.refl [.pc] s

end Sys2Proof.Machine
end

section
/-! PROOFS. Jumps and skips (spec 40_flow.md). -/

namespace Sys2Proof.Machine

theorem zextAddr_toNat (nnn : Addr) : (zextAddr nnn).toNat = nnn.toNat :=
  BitVec.toNat_setWidth_of_le (by decide)

/-- A completed instruction that changes no part but pc. -/
theorem exec_completes_of_keepsBut_pc {i : Instr} {s t : State} (hexec : exec i s = complete t)
    (hkeeps : KeepsBut [.pc] s t) :
    ∃ u, exec i s = .next u ∧ u.pc = t.pc ∧ u.outcome = .advanced ∧ KeepsBut [.pc, .outcome] s u :=
  ⟨t.writeOutcome .advanced, hexec, rfl, rfl, hkeeps.trans (t.writeOutcome_keepsBut .advanced)⟩

/-- A skip instruction on the test `c` (R140). -/
theorem exec_skips {i : Instr} {s : State} {c : Bool} (hexec : exec i s = complete (s.skipIf c)) :
    ∃ t, exec i s = .next t ∧ t.pc = (if c then s.pc + 2 else s.pc) ∧ t.outcome = .advanced ∧
      KeepsBut [.pc, .outcome] s t := by
  simpa only [State.skipIf_pc] using exec_completes_of_keepsBut_pc hexec (s.skipIf_keepsBut c)

/-- Settles O20: the written pc is the zero-extended field. -/
theorem jumpGoesToAddress : Obligations.JumpGoesToAddress := by
  intro s nnn
  obtain ⟨t, hexec, hpc, hout, hkeeps⟩ :=
    exec_completes_of_keepsBut_pc (i := .jp nnn) rfl (s.writePc_keepsBut (zextAddr nnn))
  exact ⟨t, hexec, by rw [hpc, State.writePc_pc, zextAddr_toNat], hout, hkeeps⟩

/-- Settles O22: both are skip instructions, on the test `Vx = kk` and on its negation. -/
theorem skipsOnImmediate : Obligations.SkipsOnImmediate := by
  intro s x kk
  constructor
  · simpa using exec_skips (i := .seImm x kk) (s := s) rfl
  · simpa using exec_skips (i := .sneImm x kk) (s := s) rfl

/-- Settles O23: as on the immediate byte; the ignored bits do not reach the test. -/
theorem skipsOnRegisters : Obligations.SkipsOnRegisters := by
  intro s x y ign
  constructor
  · simpa using exec_skips (i := .seReg x y ign) (s := s) rfl
  · simpa using exec_skips (i := .sneReg x y ign) (s := s) rfl

end Sys2Proof.Machine
end

section
/-! PROOFS. Register loads and the ALU operations that write no flag (spec 41_alu.md, R264). -/

namespace Sys2Proof.Machine

theorem State.writeV_keepsBut (s : State) (x : Reg) (b : Byte) : KeepsBut [.regs] s (s.writeV x b) := by
  intro p hp
  cases p with
  | regs => simp at hp
  | _ => simp [Part.Same]

theorem State.writeV_keepsRegsBut (s : State) (x : Reg) (b : Byte) : KeepsRegsBut [x] s (s.writeV x b) := by
  intro z hz
  rw [List.mem_singleton] at hz
  rw [State.readV_writeV, if_neg hz]

/-- A completed instruction that writes one register: the register may be VF, which no flag then overwrites. -/
theorem exec_completes_of_writeV {i : Instr} {s : State} {x : Reg} {b : Byte}
    (hexec : exec i s = complete (s.writeV x b)) :
    ∃ t, exec i s = .next t ∧ t.readV x = b ∧ t.outcome = .advanced ∧
      KeepsRegsBut [x] s t ∧ KeepsBut [.regs, .outcome] s t :=
  ⟨(s.writeV x b).writeOutcome .advanced, hexec, by simp, rfl, s.writeV_keepsRegsBut x b,
    (s.writeV_keepsBut x b).trans ((s.writeV x b).writeOutcome_keepsBut .advanced)⟩

/-- Settles O25: each load is a completed write of its source to Vx. -/
theorem loadsWriteTheDestination : Obligations.LoadsWriteTheDestination := by
  intro s x y kk
  exact ⟨exec_completes_of_writeV (i := .ldImm x kk) rfl, exec_completes_of_writeV (i := .ldReg x y) rfl,
    exec_completes_of_writeV (i := .ldVxDt x) rfl⟩

/-- Settles O26: the byte written is the machine sum, which is the sum modulo 256. -/
theorem addImmediateWrapsWithoutFlag : Obligations.AddImmediateWrapsWithoutFlag := by
  intro s x kk
  obtain ⟨t, hexec, hx, hrest⟩ := exec_completes_of_writeV (i := .addImm x kk) (s := s) rfl
  exact ⟨t, hexec, by rw [hx, BitVec.toNat_add], hrest⟩

/-- Settles O27: the byte written is the bitwise combination, whose bits are the combinations of the bits. -/
theorem bitwiseOpsWriteNoFlag : Obligations.BitwiseOpsWriteNoFlag := by
  intro s x y
  refine ⟨?_, ?_, ?_⟩
  · obtain ⟨t, hexec, hx, hrest⟩ := exec_completes_of_writeV (i := .orReg x y) (s := s) rfl
    exact ⟨t, hexec, fun k => by rw [hx, BitVec.getLsbD_or], hrest⟩
  · obtain ⟨t, hexec, hx, hrest⟩ := exec_completes_of_writeV (i := .andReg x y) (s := s) rfl
    exact ⟨t, hexec, fun k => by rw [hx, BitVec.getLsbD_and], hrest⟩
  · obtain ⟨t, hexec, hx, hrest⟩ := exec_completes_of_writeV (i := .xorReg x y) (s := s) rfl
    exact ⟨t, hexec, fun k => by rw [hx, BitVec.getLsbD_xor], hrest⟩

end Sys2Proof.Machine
end

section
/-! PROOFS. Loading the index register and adding to it (spec 42_index_memory.md). -/

namespace Sys2Proof.Machine

theorem zextByte_toNat (b : Byte) : (zextByte b).toNat = b.toNat :=
  BitVec.toNat_setWidth_of_le (by decide)

theorem State.writeI_keepsBut (s : State) (w : Word) : KeepsBut [.i] s (s.writeI w) := by
  intro p hp
  cases p with
  | i => simp at hp
  | _ => simp [Part.Same]

/-- A completed instruction that writes I: no mask and no flag follows the write. -/
theorem exec_completes_of_writeI {i : Instr} {s : State} {w : Word} (hexec : exec i s = complete (s.writeI w)) :
    ∃ t, exec i s = .next t ∧ t.i = w ∧ t.outcome = .advanced ∧ KeepsBut [.i, .outcome] s t :=
  ⟨(s.writeI w).writeOutcome .advanced, hexec, rfl, rfl,
    (s.writeI_keepsBut w).trans ((s.writeI w).writeOutcome_keepsBut .advanced)⟩

/-- Settles O33: the word written is the zero-extended field, or the machine sum, which is the sum modulo 65536. -/
theorem indexLoadAndAdd : Obligations.IndexLoadAndAdd := by
  intro s nnn x
  constructor
  · obtain ⟨t, hexec, hi, hrest⟩ := exec_completes_of_writeI (i := .ldI nnn) (s := s) rfl
    exact ⟨t, hexec, by rw [hi, zextAddr_toNat], hrest⟩
  · obtain ⟨t, hexec, hi, hrest⟩ := exec_completes_of_writeI (i := .addI x) (s := s) rfl
    exact ⟨t, hexec, by rw [hi, BitVec.toNat_add, zextByte_toNat], hrest⟩

end Sys2Proof.Machine
end

section
/-! PROOFS. Clearing the framebuffer (spec 43_display.md, R231). -/

namespace Sys2Proof.Machine

theorem State.writeFb_keepsBut (s : State) (f : Framebuffer) : KeepsBut [.fb] s (s.writeFb f) := by
  intro p hp
  cases p with
  | fb => simp at hp
  | _ => simp [Part.Same]

/-- In a framebuffer of zero rows every pixel is off, as is every one outside the array. -/
theorem pixelAt_replicate_zero (x y : Nat) : pixelAt (Vector.replicate 32 0) x y = false := by
  unfold pixelAt
  split
  · rw [Vector.getElem_replicate, BitVec.ofNat_eq_ofNat, BitVec.getLsbD_zero]
  · rfl

/-- Settles O40: CLS is a completed write of zero rows, whatever the ignored bits are. -/
theorem clearTurnsEveryPixelOff : Obligations.ClearTurnsEveryPixelOff := by
  intro s ign
  exact ⟨_, rfl, fun x y _ _ => pixelAt_replicate_zero x y, rfl,
    (s.writeFb_keepsBut (Vector.replicate 32 0)).trans (State.writeOutcome_keepsBut _ .advanced)⟩

end Sys2Proof.Machine
end

section
/-! PROOFS. Waiting for a key and loading the timers (spec 44_timers_keys.md, R266, R272, R273). -/

namespace Sys2Proof.Machine

/-- The key found is the only pressed key with no pressed key below it. -/
theorem State.firstKey_eq_some_iff (s : State) (k : Nibble) :
    s.firstKey = some k ↔ s.key k = true ∧ ∀ j : Nibble, j.toNat < k.toNat → s.key j = false := by
  refine ⟨fun h => ⟨State.key_of_firstKey h, State.firstKey_lowest h⟩, fun ⟨hk, hlow⟩ => ?_⟩
  cases hfound : s.firstKey with
  | none => simp [(State.firstKey_eq_none_iff s).1 hfound k] at hk
  | some j =>
    have hj := State.key_of_firstKey hfound
    rcases Nat.lt_trichotomy j.toNat k.toNat with hlt | heq | hgt
    · simp [hlow j hlt] at hj
    · rw [BitVec.eq_of_toNat_eq heq]
    · simp [State.firstKey_lowest hfound k hgt] at hk

theorem exec_ldVxK_of_firstKey_some {s : State} {k : Nibble} (h : s.firstKey = some k) (x : Reg) :
    exec (.ldVxK x) s = complete (s.writeV x (k.setWidth 8)) := by
  simp only [exec, execLdVxK, h]

theorem exec_ldVxK_of_firstKey_none {s : State} (h : s.firstKey = none) (x : Reg) :
    exec (.ldVxK x) s = park s.rollBackPc := by
  simp only [exec, execLdVxK, h]

/-- Settles O44: the lowest pressed key is the key found, so this is a completed write of it to Vx; with no key pressed
none is found, and pc rolls back. -/
theorem keyWaitTakesLowestKeyOrParks : Obligations.KeyWaitTakesLowestKeyOrParks := by
  constructor
  · intro s x k hk hlow
    have hfound : s.firstKey = some k := (s.firstKey_eq_some_iff k).2 ⟨hk, hlow⟩
    obtain ⟨t, hexec, hx, hrest⟩ := exec_completes_of_writeV (exec_ldVxK_of_firstKey_some hfound x)
    exact ⟨t, hexec, by rw [hx, BitVec.toNat_setWidth_of_le (by decide)], hrest⟩
  · intro s x hnone
    have hfound : s.firstKey = none := s.firstKey_eq_none_iff.2 hnone
    exact ⟨s.rollBackPc.writeOutcome .parked, exec_ldVxK_of_firstKey_none hfound x, rfl, rfl,
      (s.writePc_keepsBut (s.pc - 2)).trans (s.rollBackPc.writeOutcome_keepsBut .parked)⟩

theorem State.writeDt_keepsBut (s : State) (b : Byte) : KeepsBut [.dt] s (s.writeDt b) := by
  intro p hp
  cases p with
  | dt => simp at hp
  | _ => simp [Part.Same]

theorem State.writeSt_keepsBut (s : State) (b : Byte) : KeepsBut [.st] s (s.writeSt b) := by
  intro p hp
  cases p with
  | st => simp at hp
  | _ => simp [Part.Same]

/-- Sound is active exactly while ST is not 0 (R40). -/
theorem State.soundActive_iff (s : State) : s.soundActive = true ↔ s.st ≠ 0 := by
  simp [State.soundActive]

/-- Settles O46: each is a completed write of its timer, and `sound_active` is read off the ST written. -/
theorem timersLoadFromRegister : Obligations.TimersLoadFromRegister := by
  intro s x
  constructor
  · exact ⟨(s.writeDt (s.readV x)).writeOutcome .advanced, rfl, rfl, rfl,
      (s.writeDt_keepsBut _).trans (State.writeOutcome_keepsBut _ .advanced)⟩
  · exact ⟨(s.writeSt (s.readV x)).writeOutcome .advanced, rfl, rfl, State.soundActive_iff _, rfl,
      (s.writeSt_keepsBut _).trans (State.writeOutcome_keepsBut _ .advanced)⟩

end Sys2Proof.Machine
end

section
/-! PROOFS. The decoder loses no bit: what it decodes is encoded back to the word (spec 30_encoding.md R102, R119). -/

namespace Sys2Proof

/-- Format A: a word is packed from its other fields and a literal that its `op` field equals. -/
theorem packA_of_op {w : Word} {op : Nibble} (hop : (opField w).toNat = op.toNat) : packA op (nnnField w) = w := by
  rw [← BitVec.eq_of_toNat_eq hop, packA_fields]

/-- Format B: as `packA_of_op`. -/
theorem packB_of_op {w : Word} {op : Nibble} (hop : (opField w).toNat = op.toNat) :
    packB op (xField w) (kkField w) = w := by
  rw [← BitVec.eq_of_toNat_eq hop, packB_fields]

/-- Format C: as `packA_of_op`. -/
theorem packC_of_op {w : Word} {op : Nibble} (hop : (opField w).toNat = op.toNat) :
    packC op (xField w) (yField w) (nField w) = w := by
  rw [← BitVec.eq_of_toNat_eq hop, packC_fields]

/-- As `packB_of_op`, with a literal for the secondary key in the byte `kk` (R111, R113, R114). -/
theorem packB_of_op_key {w : Word} {op : Nibble} {key : Byte} (hop : (opField w).toNat = op.toNat)
    (hkey : (kkField w).toNat = key.toNat) : packB op (xField w) key = w := by
  rw [← BitVec.eq_of_toNat_eq hkey, packB_of_op hop]

/-- As `packC_of_op`, with a literal for the secondary key in the nibble `n` (R112). -/
theorem packC_of_op_key {w : Word} {op key : Nibble} (hop : (opField w).toNat = op.toNat)
    (hkey : (nField w).toNat = key.toNat) : packC op (xField w) (yField w) key = w := by
  rw [← BitVec.eq_of_toNat_eq hkey, packC_of_op hop]

theorem encode_decodeFamily0 {w : Word} (hop : (opField w).toNat = 0x0) : encode (decodeFamily0 w) = w := by
  unfold decodeFamily0
  split
  iterate 2 exact packB_of_op_key hop ‹_›
  rfl

theorem encode_decodeFamily8 {w : Word} (hop : (opField w).toNat = 0x8) : encode (decodeFamily8 w) = w := by
  unfold decodeFamily8
  split
  iterate 9 exact packC_of_op_key hop ‹_›
  rfl

theorem encode_decodeFamilyE {w : Word} (hop : (opField w).toNat = 0xE) : encode (decodeFamilyE w) = w := by
  unfold decodeFamilyE
  split
  iterate 2 exact packB_of_op_key hop ‹_›
  rfl

theorem encode_decodeFamilyF {w : Word} (hop : (opField w).toNat = 0xF) : encode (decodeFamilyF w) = w := by
  unfold decodeFamilyF
  split
  iterate 9 exact packB_of_op_key hop ‹_›
  rfl

/-- Every word is the encoding of what it decodes to: the four families with a secondary key, then the rows of formats A,
B and C. -/
theorem encode_decodeWord (w : Word) : encode (decodeWord w) = w := by
  unfold decodeWord
  split
  case h_1 hop => exact encode_decodeFamily0 hop
  case h_9 hop => exact encode_decodeFamily8 hop
  case h_15 hop => exact encode_decodeFamilyE hop
  case h_16 =>
    have hlt : (opField w).toNat < 16 := (opField w).isLt
    have hop : (opField w).toNat = 0xF := by grind
    exact encode_decodeFamilyF hop
  case h_2 hop | h_3 hop | h_11 hop | h_12 hop => exact packA_of_op hop
  case h_4 hop | h_5 hop | h_7 hop | h_8 hop | h_13 hop => exact packB_of_op hop
  case h_6 hop | h_10 hop | h_14 hop => exact packC_of_op hop

end Sys2Proof
end

section
/-! PROOFS. The faults of a step (spec 60_exceptions.md R305 to R308). -/

namespace Sys2Proof.Machine

@[simp] theorem encode_fetchInstr (s : State) : encode (fetchInstr s) = fetchWord s := encode_decodeWord (fetchWord s)

/-- The fetch advance makes the address of the executing instruction the one fetched from (R124). -/
@[simp] theorem State.advancePc_instrAddr (s : State) : s.advancePc.instrAddr = s.pc := BitVec.add_sub_cancel s.pc 2

@[simp] theorem State.advancePc_fontHit (s : State) (n : Nat) : s.advancePc.fontHit n = s.fontHit n := rfl

/-- Everything on which a step faults, and with what: the fault's word and address are those of the fetch. -/
theorem step_fault_iff (s : State) (f : Fault) : step s = .fault f ↔
    (∃ n, fetchInstr s = .call n ∧ s.sp.val = 16 ∧ f = .stackOverflow (fetchWord s) s.pc) ∨
    (∃ n, fetchInstr s = .ret n ∧ s.sp.val = 0 ∧ f = .stackUnderflow (fetchWord s) s.pc) ∨
    (∃ x a, fetchInstr s = .ldB x ∧ s.fontHit 3 = some a ∧ f = .fontWrite (fetchWord s) s.pc a) ∨
    (∃ x a, fetchInstr s = .storeRegs x ∧ s.fontHit (x.toNat + 1) = some a ∧ f = .fontWrite (fetchWord s) s.pc a) := by
  rw [step, exec_fault_iff]
  simp only [encode_fetchInstr, State.advancePc_instrAddr, State.advancePc_fontHit, State.advancePc_sp]

/-- Settles O10: of everything on which a step faults, one case gives each stack fault. -/
theorem stackFaultCauses : Obligations.StackFaultCauses := by
  intro s
  constructor
  · intro w a
    rw [step_fault_iff]
    constructor
    · rintro (⟨n, hcall, hsp, hf⟩ | ⟨_, _, _, hf⟩ | ⟨_, _, _, _, hf⟩ | ⟨_, _, _, _, hf⟩) <;> cases hf
      exact ⟨⟨n, hcall⟩, Fin.ext hsp, rfl, rfl⟩
    · rintro ⟨⟨n, hcall⟩, hsp, rfl, rfl⟩
      exact .inl ⟨n, hcall, congrArg Fin.val hsp, rfl⟩
  · intro w a
    rw [step_fault_iff]
    constructor
    · rintro (⟨_, _, _, hf⟩ | ⟨ign, hret, hsp, hf⟩ | ⟨_, _, _, _, hf⟩ | ⟨_, _, _, _, hf⟩) <;> cases hf
      exact ⟨⟨ign, hret⟩, Fin.ext hsp, rfl, rfl⟩
    · rintro ⟨⟨ign, hret⟩, hsp, rfl, rfl⟩
      exact .inr (.inl ⟨ign, hret, congrArg Fin.val hsp, rfl⟩)

end Sys2Proof.Machine
end

section
/-! PROOFS. The tick of the timers (spec 60_exceptions.md R320). -/

namespace Sys2Proof.Machine

/-- A tick is truncated subtraction: it stops at 0. -/
theorem tickTimer_toNat (b : Byte) : (tickTimer b).toNat = b.toNat - 1 := by
  unfold tickTimer
  split
  case isTrue h => rw [h]; rfl
  case isFalse h => bv_omega

theorem State.tick_keepsBut (s : State) : KeepsBut [.dt, .st] s s.tick := by
  intro p hp
  cases p with
  | dt | st => simp at hp
  | _ => simp [Part.Same]

/-- Settles O51: each timer ticks by itself. -/
theorem tickDecrementsNonzeroTimers : Obligations.TickDecrementsNonzeroTimers := by
  intro s
  exact ⟨tickTimer_toNat s.dt, tickTimer_toNat s.st, s.tick_keepsBut⟩

end Sys2Proof.Machine
end

section
/-! PROOFS. Loading a ROM (spec 70_reset_and_hazards.md R353, R354). -/

namespace Sys2Proof.Machine

theorem State.load_of_fits {rom : List Byte} (h : rom.length ≤ 3584) (s : State) :
    s.load rom = (.loadOk, s.writeRom 0 rom) := if_pos h

theorem State.load_of_tooLong {rom : List Byte} (h : 3584 < rom.length) (s : State) :
    s.load rom = (.romTooLarge, s) := if_neg (Nat.not_le_of_lt h)

theorem State.writeRom_keepsBut (s : State) (j : Nat) (bs : List Byte) : KeepsBut [.mem] s (s.writeRom j bs) := by
  intro p hp
  cases p with
  | mem => simp at hp
  | _ => simp [Part.Same, State.readV, State.writeRom_fields]

/-- Byte `j` of a ROM that fits is read at 0x200 + j, which is below 4096. -/
theorem State.writeRom_readMem_rom (s : State) {rom : List Byte} (hfits : rom.length ≤ 3584) {j : Nat}
    (hj : j < rom.length) : (s.writeRom 0 rom).readMem (BitVec.ofNat 12 (0x200 + j)) = rom[j] := by
  have haddr : (BitVec.ofNat 12 (0x200 + j)).toNat = 0x200 + j := by
    rw [BitVec.toNat_ofNat]
    omega
  rw [State.writeRom_readMem s 0 rom (by omega), dif_pos (by omega)]
  simp only [haddr, Nat.sub_zero, Nat.add_sub_cancel_left]

theorem State.writeRom_readMem_outside (s : State) {rom : List Byte} (hfits : rom.length ≤ 3584) {a : Addr}
    (ha : a.toNat < 0x200 ∨ 0x200 + rom.length ≤ a.toNat) : (s.writeRom 0 rom).readMem a = s.readMem a := by
  rw [State.writeRom_readMem s 0 rom (by omega), dif_neg (by omega)]

/-- Settles O53: a ROM that fits is copied from 0x200 on, above the font; a longer one is rejected by the length test
before any write. -/
theorem loadCopiesRomOrRejects : Obligations.LoadCopiesRomOrRejects := by
  constructor
  · intro s rom hfits
    rw [State.load_of_fits hfits]
    refine ⟨rfl, fun j hj => s.writeRom_readMem_rom hfits hj, fun a ha => s.writeRom_readMem_outside hfits ha,
      fun a hfont => ?_, s.writeRom_keepsBut 0 rom⟩
    obtain ⟨_, hbelow⟩ := (inFont_iff a).1 hfont
    exact s.writeRom_readMem_outside hfits (.inl (by omega))
  · intro s rom hlong
    exact State.load_of_tooLong hlong s

end Sys2Proof.Machine
end

section
/-! PROOFS. The decoder against the encoder and the opcode table (spec 30_encoding.md sections 2 and 3). -/

namespace Sys2Proof

/-! A masked word is packed from the fields that the mask keeps. -/

theorem and_maskOp (w : Word) : w &&& 0xF000 = packB (opField w) 0 0 := by
  simpa only [packB_fields] using Laws.TableRow.packB_mask (opField w) (xField w) (kkField w)

theorem and_maskOpByte (w : Word) : w &&& 0xF0FF = packB (opField w) 0 (kkField w) := by
  simpa only [packB_fields] using Laws.TableRow.packB_maskKey (opField w) (xField w) (kkField w)

theorem and_maskOpNibble (w : Word) : w &&& 0xF00F = packC (opField w) 0 0 (nField w) := by
  simpa only [packC_fields] using Laws.TableRow.packC_maskKey (opField w) (xField w) (yField w) (nField w)

theorem and_maskByte (w : Word) : w &&& 0x00FF = packB 0 0 (kkField w) := by
  apply BitVec.eq_of_toNat_eq
  rw [packB_toNat, kkField_toNat, BitVec.toNat_and]
  simpa using Nat.and_two_pow_sub_one_eq_mod w.toNat 8

theorem and_maskNibble (w : Word) : w &&& 0x000F = packC 0 0 0 (nField w) := by
  apply BitVec.eq_of_toNat_eq
  rw [packC_toNat, nField_toNat, BitVec.toNat_and]
  simpa using Nat.and_two_pow_sub_one_eq_mod w.toNat 4

/-- The space of R116 by fields: the four families with a secondary key, less their keys. -/
theorem unknownWord_iff (w : Word) : unknownWord w = true ↔
    (opField w = 0x0 ∧ kkField w ∉ ([0xE0, 0xEE] : List Byte)) ∨
    (opField w = 0x8 ∧ nField w ∈ ([0x8, 0x9, 0xA, 0xB, 0xC, 0xD, 0xF] : List Nibble)) ∨
    (opField w = 0xE ∧ kkField w ∉ ([0x9E, 0xA1] : List Byte)) ∨
    (opField w = 0xF ∧ kkField w ∉ ([0x07, 0x0A, 0x15, 0x18, 0x1E, 0x29, 0x33, 0x55, 0x65] : List Byte)) := by
  have hop : ∀ a b : Nibble, packB a 0 0 = packB b 0 0 ↔ a = b := by decide
  have hbyte : Function.Injective (packB 0 0) := fun a b h => by
    rw [← (fields_packB 0 0 a).2.2, h, (fields_packB 0 0 b).2.2]
  have hnibble : Function.Injective (packC 0 0 0) := fun a b h => by
    rw [← (fields_packC 0 0 0 a).2.2.2, h, (fields_packC 0 0 0 b).2.2.2]
  unfold unknownWord
  rw [and_maskOp, and_maskByte, and_maskNibble]
  -- The lists of keys as words are the lists of keys as fields, packed.
  rw [← List.mem_map_of_injective hbyte, ← List.mem_map_of_injective hbyte, ← List.mem_map_of_injective hbyte,
    ← List.mem_map_of_injective hnibble, ← hop, ← hop, ← hop, ← hop]
  simp only [Bool.or_eq_true, Bool.and_eq_true, beq_iff_eq, Bool.not_eq_true', List.contains_eq_mem, or_assoc,
    decide_eq_true_eq, decide_eq_false_iff_not]
  rfl

theorem decodeFamily0_eq_unknown_iff (w : Word) :
    decodeFamily0 w = .unknown w ↔ kkField w ∉ ([0xE0, 0xEE] : List Byte) := by
  simp only [List.mem_cons, List.not_mem_nil, ← BitVec.toNat_inj]
  unfold decodeFamily0
  split
  all_goals simp_all

theorem decodeFamily8_eq_unknown_iff (w : Word) :
    decodeFamily8 w = .unknown w ↔ nField w ∈ ([0x8, 0x9, 0xA, 0xB, 0xC, 0xD, 0xF] : List Nibble) := by
  have hlt : (nField w).toNat < 16 := (nField w).isLt
  simp only [List.mem_cons, List.not_mem_nil, ← BitVec.toNat_inj]
  unfold decodeFamily8
  split
  case h_10 => exact iff_of_true rfl (by grind)
  all_goals simp_all

theorem decodeFamilyE_eq_unknown_iff (w : Word) :
    decodeFamilyE w = .unknown w ↔ kkField w ∉ ([0x9E, 0xA1] : List Byte) := by
  simp only [List.mem_cons, List.not_mem_nil, ← BitVec.toNat_inj]
  unfold decodeFamilyE
  split
  all_goals simp_all

theorem decodeFamilyF_eq_unknown_iff (w : Word) :
    decodeFamilyF w = .unknown w ↔ kkField w ∉ ([0x07, 0x0A, 0x15, 0x18, 0x1E, 0x29, 0x33, 0x55, 0x65] : List Byte) := by
  simp only [List.mem_cons, List.not_mem_nil, ← BitVec.toNat_inj]
  unfold decodeFamilyF
  split
  all_goals simp_all

/-- The decoder answers `unknown` by family, as R116 lists the space. -/
theorem decodeWord_eq_unknown_iff (w : Word) : decodeWord w = .unknown w ↔ unknownWord w = true := by
  have hlt : (opField w).toNat < 16 := (opField w).isLt
  simp only [unknownWord_iff, ← decodeFamily0_eq_unknown_iff, ← decodeFamily8_eq_unknown_iff,
    ← decodeFamilyE_eq_unknown_iff, ← decodeFamilyF_eq_unknown_iff]
  simp only [← BitVec.toNat_inj, BitVec.ofNat_eq_ofNat]
  unfold decodeWord
  split
  case h_16 =>
    have hop : (opField w).toNat = 0xF := by grind
    simp [hop]
  all_goals simp_all

theorem decodeWord_encode_of_known (i : Instr) (h : ∀ w, i ≠ .unknown w) : decodeWord (encode i) = i := by
  cases i
  case unknown w => exact absurd rfl (h w)
  case jp | call | ldI | jpV0 => simp [encode, decodeWord, fields_packA]
  case seReg | sneReg | drw | ldReg | orReg | andReg | xorReg | addReg | sub | shr | subn | shl =>
    simp [encode, decodeWord, decodeFamily8, fields_packC]
  all_goals simp [encode, decodeWord, decodeFamily0, decodeFamilyE, decodeFamilyF, fields_packB]

/-- A word that matches a row has the row's family, and its secondary key where the mask keeps one. -/
theorem opField_of_and_maskOp {w m : Word} (h : w &&& 0xF000 = m) : (opField w).toNat = m.toNat / 4096 := by
  rw [← h, and_maskOp, ← opField_toNat, (fields_packB _ _ _).1]

theorem fields_of_and_maskOpByte {w m : Word} (h : w &&& 0xF0FF = m) :
    (opField w).toNat = m.toNat / 4096 ∧ (kkField w).toNat = m.toNat % 256 := by
  rw [← h, and_maskOpByte, ← opField_toNat, ← kkField_toNat]
  simp only [fields_packB, and_self]

theorem fields_of_and_maskOpNibble {w m : Word} (h : w &&& 0xF00F = m) :
    (opField w).toNat = m.toNat / 4096 ∧ (nField w).toNat = m.toNat % 16 := by
  rw [← h, and_maskOpNibble, ← opField_toNat, ← nField_toNat]
  simp only [fields_packC, and_self]

theorem row_decodeWord_of_match {w : Word} {i : Instr} {r : Word × Word} (hr : i.row = some r) (hm : w &&& r.1 = r.2) :
    (decodeWord w).row = some r := by
  cases i
  case unknown => cases hr
  case jp | call | seImm | sneImm | seReg | ldImm | addImm | sneReg | ldI | jpV0 | rnd | drw =>
    cases hr
    simp [decodeWord, opField_of_and_maskOp hm, Instr.row]
  case ldReg | orReg | andReg | xorReg | addReg | sub | shr | subn | shl =>
    cases hr
    simp [decodeWord, decodeFamily8, fields_of_and_maskOpNibble hm, Instr.row]
  all_goals
    cases hr
    simp [decodeWord, decodeFamily0, decodeFamilyE, decodeFamilyF, fields_of_and_maskOpByte hm, Instr.row]

/-- The law of every instruction's row, gathered. -/
theorem encode_matches_row : ∀ i : Instr, Laws.TableRow.Statement i
  | .cls a => Laws.TableRow.cls a
  | .ret a => Laws.TableRow.ret a
  | .jp a => Laws.TableRow.jp a
  | .call a => Laws.TableRow.call a
  | .seImm a b => Laws.TableRow.seImm a b
  | .sneImm a b => Laws.TableRow.sneImm a b
  | .seReg a b c => Laws.TableRow.seReg a b c
  | .ldImm a b => Laws.TableRow.ldImm a b
  | .addImm a b => Laws.TableRow.addImm a b
  | .sneReg a b c => Laws.TableRow.sneReg a b c
  | .ldI a => Laws.TableRow.ldI a
  | .jpV0 a => Laws.TableRow.jpV0 a
  | .rnd a b => Laws.TableRow.rnd a b
  | .drw a b c => Laws.TableRow.drw a b c
  | .ldReg a b => Laws.TableRow.ldReg a b
  | .orReg a b => Laws.TableRow.orReg a b
  | .andReg a b => Laws.TableRow.andReg a b
  | .xorReg a b => Laws.TableRow.xorReg a b
  | .addReg a b => Laws.TableRow.addReg a b
  | .sub a b => Laws.TableRow.sub a b
  | .shr a b => Laws.TableRow.shr a b
  | .subn a b => Laws.TableRow.subn a b
  | .shl a b => Laws.TableRow.shl a b
  | .skp a => Laws.TableRow.skp a
  | .sknp a => Laws.TableRow.sknp a
  | .ldVxDt a => Laws.TableRow.ldVxDt a
  | .ldVxK a => Laws.TableRow.ldVxK a
  | .ldDtVx a => Laws.TableRow.ldDtVx a
  | .ldStVx a => Laws.TableRow.ldStVx a
  | .addI a => Laws.TableRow.addI a
  | .ldF a => Laws.TableRow.ldF a
  | .ldB a => Laws.TableRow.ldB a
  | .storeRegs a => Laws.TableRow.storeRegs a
  | .loadRegs a => Laws.TableRow.loadRegs a
  | .unknown a => Laws.TableRow.unknown a

theorem row_eq_none_iff (i : Instr) : i.row = none ↔ ∃ w, i = .unknown w := by
  cases i <;> simp [Instr.row]

/-- The decoder makes no unknown instruction but that of its own word. -/
theorem eq_of_decodeWord_eq_unknown {w v : Word} (h : decodeWord w = .unknown v) : v = w := by
  rw [← encode_decodeWord w, h, encode]

theorem decodeWord_wf (w : Word) : (decodeWord w).wf = true := by
  cases h : decodeWord w
  case unknown v =>
    cases eq_of_decodeWord_eq_unknown h
    exact (decodeWord_eq_unknown_iff w).1 h
  all_goals rfl

/-- Settles O3: nothing is lost in decoding, and the decoder's unknown words are the space of R116. -/
theorem encodeOfDecode : Obligations.EncodeOfDecode := fun w =>
  ⟨decodeWord_wf w, encode_decodeWord w, decodeWord_eq_unknown_iff w⟩

theorem decodeWord_encode {i : Instr} (h : i.wf = true) : decodeWord (encode i) = i := by
  by_cases hknown : ∃ w, i = .unknown w
  · obtain ⟨w, rfl⟩ := hknown
    exact (decodeWord_eq_unknown_iff w).2 h
  · exact decodeWord_encode_of_known i (not_exists.1 hknown)

/-- The two bytes of a word, put together again (R75, R101). -/
theorem wordOfBytes_bytes (w : Word) : wordOfBytes (w.extractLsb' 8 8) (w.extractLsb' 0 8) = w := by
  apply BitVec.eq_of_toNat_eq
  simp only [wordOfBytes, append_toNat, BitVec.extractLsb'_toNat, Nat.shiftRight_eq_div_pow]
  omega

/-- Settles O2: the word by rows and the unknown space, the bytes by the word. -/
theorem decodeOfEncode : Obligations.DecodeOfEncode := by
  intro i hwf
  refine ⟨decodeWord_encode hwf, fun rest => ?_⟩
  simp only [encodeBytes, List.cons_append, List.nil_append, decode, wordOfBytes_bytes, decodeWord_encode hwf]

theorem match_iff_row_decodeWord (w : Word) {i : Instr} {r : Word × Word} (hr : i.row = some r) :
    w &&& r.1 = r.2 ↔ (decodeWord w).row = some r := by
  refine ⟨row_decodeWord_of_match hr, fun h => ?_⟩
  simpa only [encode_decodeWord] using encode_matches_row _ (decodeWord_wf w) r h

/-- Settles O4: a word matches the row it decodes to and no other; an unknown word has no row to match. -/
theorem decodeFollowsTable : Obligations.DecodeFollowsTable := by
  intro w
  refine ⟨fun i r hr => match_iff_row_decodeWord w hr, ?_⟩
  have hnone : (decodeWord w).row = none ↔ unknownWord w = true := by
    rw [row_eq_none_iff, ← decodeWord_eq_unknown_iff]
    exact ⟨fun ⟨v, h⟩ => eq_of_decodeWord_eq_unknown h ▸ h, fun h => ⟨w, h⟩⟩
  rw [← hnone, Option.eq_none_iff_forall_not_mem]
  constructor
  · intro hno r hr
    exact hno _ r hr ((match_iff_row_decodeWord w hr).2 hr)
  · intro hno i r hr hmatch
    exact hno r ((match_iff_row_decodeWord w hr).1 hmatch)

/-! The unknown words of a family: the key is none of the family's. -/

theorem unknownWord_family0 (x : Nibble) (kk : Byte) :
    unknownWord (packB 0x0 x kk) = decide (kk ∉ ([0xE0, 0xEE] : List Byte)) := by
  rw [Bool.eq_iff_iff, unknownWord_iff]
  simp [fields_packB]

theorem unknownWord_family8 (x y n : Nibble) :
    unknownWord (packC 0x8 x y n) = decide (n ∈ ([0x8, 0x9, 0xA, 0xB, 0xC, 0xD, 0xF] : List Nibble)) := by
  rw [Bool.eq_iff_iff, unknownWord_iff]
  simp [fields_packC]

theorem unknownWord_familyE (x : Nibble) (kk : Byte) :
    unknownWord (packB 0xE x kk) = decide (kk ∉ ([0x9E, 0xA1] : List Byte)) := by
  rw [Bool.eq_iff_iff, unknownWord_iff]
  simp [fields_packB]

theorem unknownWord_familyF (x : Nibble) (kk : Byte) :
    unknownWord (packB 0xF x kk) =
      decide (kk ∉ ([0x07, 0x0A, 0x15, 0x18, 0x1E, 0x29, 0x33, 0x55, 0x65] : List Byte)) := by
  rw [Bool.eq_iff_iff, unknownWord_iff]
  simp [fields_packB]

theorem mem_map_ofNat_range {n : Nat} (b : BitVec n) : b ∈ (List.range (2 ^ n)).map (BitVec.ofNat n) :=
  List.mem_map.2 ⟨b.toNat, List.mem_range.2 b.isLt, by simp⟩

theorem nodup_map_ofNat_range (n : Nat) : ((List.range (2 ^ n)).map (BitVec.ofNat n)).Nodup := by
  refine List.nodup_range.map_on fun a ha b hb h => ?_
  rw [List.mem_range] at ha hb
  simpa [Nat.mod_eq_of_lt ha, Nat.mod_eq_of_lt hb] using congrArg BitVec.toNat h

/-- Of the values of `n` bits, all but the keys are no key. -/
theorem countP_not_mem_keys {n : Nat} {keys : List (BitVec n)} (h : keys.Nodup) :
    (List.range (2 ^ n)).countP (fun k => decide (BitVec.ofNat n k ∉ keys)) = 2 ^ n - keys.length := by
  have hkeys : (((List.range (2 ^ n)).map (BitVec.ofNat n)).filter (· ∈ keys)).Perm keys :=
    (List.perm_ext_iff_of_nodup ((nodup_map_ofNat_range n).filter _) h).2 fun b => by
      simp only [List.mem_filter, mem_map_ofNat_range, true_and, decide_eq_true_eq]
  have hsplit := List.length_eq_countP_add_countP (fun b => decide (b ∈ keys))
    (l := (List.range (2 ^ n)).map (BitVec.ofNat n))
  rw [List.countP_eq_length_filter, hkeys.length_eq, List.countP_map, List.length_map, List.length_range] at hsplit
  simp only [Function.comp_def, decide_eq_true_eq] at hsplit
  omega

/-- Settles O5: in families 0, E and F every byte but the keys is unknown; in family 8 the holes are listed. -/
theorem unknownSpaceCounts : Obligations.UnknownSpaceCounts := by
  refine ⟨fun x => ⟨?_, ?_, ?_⟩, fun x y => ?_, fun w h => ?_⟩
  · simp only [unknownWord_family0]
    exact countP_not_mem_keys (n := 8) (by decide)
  · simp only [unknownWord_familyE]
    exact countP_not_mem_keys (n := 8) (by decide)
  · simp only [unknownWord_familyF]
    exact countP_not_mem_keys (n := 8) (by decide)
  · simp only [unknownWord_family8]
    decide
  · rw [unknownWord_iff] at h
    exact h.imp And.left (Or.imp And.left (Or.imp And.left And.left))

/-- Settles O1: each word is decoded. -/
theorem tableWordsDecode : Obligations.TableWordsDecode := by
  unfold Obligations.TableWordsDecode
  decide

end Sys2Proof
end

section
/-! PROOFS. What each instruction may change, and how it ends (spec 10_state.md section 6, 60_exceptions.md section 1). -/

namespace Sys2Proof.Machine

/-! ## The updates that no earlier proof composes -/

theorem State.writeSp_keepsBut (s : State) (n : Fin 17) : KeepsBut [.sp] s (s.writeSp n) := by
  intro p hp
  cases p with
  | sp => simp at hp
  | _ => simp [Part.Same]

theorem State.writeStack_keepsBut (s : State) (k : Vector Word 16) : KeepsBut [.stack] s (s.writeStack k) := by
  intro p hp
  cases p with
  | stack => simp at hp
  | _ => simp [Part.Same]

theorem State.writeFlagged_keepsBut (s : State) (x : Reg) (f : Bool) (b : Byte) :
    KeepsBut [.regs] s (s.writeFlagged x f b) := by
  intro p hp
  cases p with
  | regs => simp at hp
  | _ => simp [Part.Same]

theorem State.drawn_keepsBut (s : State) : KeepsBut [.rndDraws] s s.drawn := by
  intro p hp
  cases p with
  | rndDraws => simp at hp
  | _ => simp [Part.Same]

theorem State.writeIndexed_keepsBut (s : State) (k : Nat) (bs : List Byte) :
    KeepsBut [.mem] s (s.writeIndexed k bs) := by
  intro p hp
  cases p with
  | mem => simp at hp
  | _ => simp [Part.Same, State.readV, State.writeIndexed_fields]

theorem State.loadIndexed_keepsBut (n : Nat) (s : State) : KeepsBut [.regs] s (State.loadIndexed n s) := by
  intro p hp
  cases p with
  | regs => simp at hp
  | _ => simp [Part.Same, State.readMem, State.loadIndexed_fields]

/-- What changes at most some parts changes at most more. -/
theorem KeepsBut.mono {ps qs : List Part} {s t : State} (h : KeepsBut ps s t) (hsub : ps ⊆ qs) : KeepsBut qs s t :=
  fun p hp => h p fun hq => hp (hsub hq)

/-! ## CALL, RET and the stores by their two cases -/

theorem exec_call_of_lt {s : State} (h : s.sp.val < 16) (nnn : Addr) : exec (.call nnn) s =
    complete (((s.writeStack (s.stack.set s.sp.val s.pc)).writeSp ⟨s.sp.val + 1, by omega⟩).writePc (zextAddr nnn)) := by
  simp only [exec, execCall, State.push_of_lt s s.pc h]

theorem exec_call_of_full {s : State} (h : s.sp.val = 16) (nnn : Addr) :
    exec (.call nnn) s = .fault (.stackOverflow (encode (.call nnn)) s.instrAddr) := by
  simp only [exec, execCall, (State.push_eq_none_iff s s.pc).2 h, raise]

theorem exec_ret_of_pos {s : State} (h : 0 < s.sp.val) (ign : Nibble) : exec (.ret ign) s =
    complete ((s.writeSp ⟨s.sp.val - 1, by omega⟩).writePc (s.stack[s.sp.val - 1]'(by omega))) := by
  simp only [exec, execRet, State.pop_of_pos s h]

theorem exec_ret_of_empty {s : State} (h : s.sp.val = 0) (ign : Nibble) :
    exec (.ret ign) s = .fault (.stackUnderflow (encode (.ret ign)) s.instrAddr) := by
  simp only [exec, execRet, (State.pop_eq_none_iff s).2 h, raise]

theorem storeIndexed_of_miss {s : State} {bs : List Byte} (h : s.fontHit bs.length = none) (word : Word) :
    storeIndexed word bs s = complete (s.writeIndexed 0 bs) := by
  simp only [storeIndexed, h]

theorem storeIndexed_of_hit {s : State} {bs : List Byte} {a : Addr} (h : s.fontHit bs.length = some a) (word : Word) :
    storeIndexed word bs s = .fault (.fontWrite word s.instrAddr a) := by
  simp only [storeIndexed, h, raise]

theorem State.regsUpTo_length (s : State) (x : Reg) : (s.regsUpTo x).length = x.toNat + 1 := by
  simp [State.regsUpTo]

/-! ## How an instruction ends and what it writes -/

/-- The instruction waits for a key and none is pressed (R266). -/
def Parks (i : Instr) (s : State) : Prop := (∃ x, i = .ldVxK x) ∧ ∀ k, s.key k = false

/-- The parts that a completed instruction writes, the outcome port apart: the written-by column of R50. -/
def writtenParts : Instr → List Part
  | .cls _ => [.fb]
  | .ret _ => [.sp, .pc]
  | .call _ => [.stack, .sp, .pc]
  | .jp _ | .jpV0 _ | .seImm _ _ | .sneImm _ _ | .seReg _ _ _ | .sneReg _ _ _ | .skp _ | .sknp _ => [.pc]
  | .ldImm _ _ | .addImm _ _ | .ldReg _ _ | .orReg _ _ | .andReg _ _ | .xorReg _ _ | .addReg _ _ | .sub _ _
  | .shr _ _ | .subn _ _ | .shl _ _ | .ldVxDt _ | .ldVxK _ | .loadRegs _ => [.regs]
  | .rnd _ _ => [.rndDraws, .regs]
  | .drw _ _ _ => [.fb, .regs]
  | .ldI _ | .addI _ | .ldF _ => [.i]
  | .ldDtVx _ => [.dt]
  | .ldStVx _ => [.st]
  | .ldB _ | .storeRegs _ => [.mem]
  | .unknown _ => []

/-- The general registers that a completed instruction writes: its destination and, for a flag writer, VF (R31, R32). -/
def writtenRegs : Instr → List Reg
  | .ldImm x _ | .addImm x _ | .ldReg x _ | .orReg x _ | .andReg x _ | .xorReg x _ | .rnd x _ | .ldVxDt x
  | .ldVxK x => [x]
  | .addReg x _ | .sub x _ | .shr x _ | .subn x _ | .shl x _ => [x, 15]
  | .drw _ _ _ => [15]
  | .loadRegs x => (List.range (x.toNat + 1)).map (BitVec.ofNat 4)
  | _ => []

/-- `t` is what a completed `i` makes of `s`, but for the outcome port. -/
def Writes (i : Instr) (s t : State) : Prop := KeepsBut (writtenParts i) s t ∧ KeepsRegsBut (writtenRegs i) s t

theorem KeepsBut.keepsRegsBut {ps : List Part} {s t : State} (h : KeepsBut ps s t) (hregs : .regs ∉ ps)
    (zs : List Reg) : KeepsRegsBut zs s t :=
  fun z _ => h .regs hregs z

theorem State.writeFlagged_keepsRegsBut (s : State) (x : Reg) (f : Bool) (b : Byte) :
    KeepsRegsBut [x, 15] s (s.writeFlagged x f b) := by
  intro z hz
  simp only [List.mem_cons, List.not_mem_nil, or_false, not_or] at hz
  exact (State.readV_writeFlagged s x f b z).trans ((if_neg hz.1).trans (if_neg hz.2))

theorem State.loadIndexed_keepsRegsBut (s : State) (x : Reg) :
    KeepsRegsBut ((List.range (x.toNat + 1)).map (BitVec.ofNat 4)) s (State.loadIndexed (x.toNat + 1) s) := by
  intro z hz
  rw [State.loadIndexed_readV _ (by omega), if_neg]
  exact fun hlt => hz (List.mem_map.2 ⟨z.toNat, List.mem_range.2 hlt, by simp⟩)

theorem writes_of_noRegs {i : Instr} {s t : State} (h : KeepsBut (writtenParts i) s t)
    (hregs : .regs ∉ writtenParts i := by simp [writtenParts]) : Writes i s t :=
  ⟨h, h.keepsRegsBut hregs _⟩

/-- An instruction that neither faults nor parks nor is unknown completes with the writes of its row. -/
theorem exec_completes {i : Instr} {s : State} (hknown : ∀ w, i ≠ .unknown w) (hparks : ¬Parks i s)
    (hfault : ∀ f, exec i s ≠ .fault f) : ∃ t, exec i s = complete t ∧ Writes i s t := by
  cases i
  case unknown w => exact absurd rfl (hknown w)
  case ldVxK x =>
    cases hkey : s.firstKey with
    | none => exact absurd ⟨⟨x, rfl⟩, s.firstKey_eq_none_iff.1 hkey⟩ hparks
    | some k => exact ⟨_, exec_ldVxK_of_firstKey_some hkey x, s.writeV_keepsBut x _, s.writeV_keepsRegsBut x _⟩
  case call nnn =>
    have hsp : s.sp.val < 16 := by
      by_contra hfull
      exact hfault _ (exec_call_of_full (by omega) nnn)
    exact ⟨_, exec_call_of_lt hsp nnn, writes_of_noRegs
      (((s.writeStack_keepsBut _).trans (State.writeSp_keepsBut _ _)).trans (State.writePc_keepsBut _ _))⟩
  case ret ign =>
    have hsp : 0 < s.sp.val := by
      by_contra hempty
      exact hfault _ (exec_ret_of_empty (by omega) ign)
    exact ⟨_, exec_ret_of_pos hsp ign, writes_of_noRegs ((s.writeSp_keepsBut _).trans (State.writePc_keepsBut _ _))⟩
  case ldB x =>
    cases hfont : s.fontHit (bcdDigits (s.readV x)).length with
    | none => exact ⟨_, storeIndexed_of_miss hfont _, writes_of_noRegs (s.writeIndexed_keepsBut 0 _)⟩
    | some a => exact absurd (storeIndexed_of_hit hfont _) (hfault _)
  case storeRegs x =>
    cases hfont : s.fontHit (s.regsUpTo x).length with
    | none => exact ⟨_, storeIndexed_of_miss hfont _, writes_of_noRegs (s.writeIndexed_keepsBut 0 _)⟩
    | some a => exact absurd (storeIndexed_of_hit hfont _) (hfault _)
  case cls => exact ⟨_, rfl, writes_of_noRegs (s.writeFb_keepsBut _)⟩
  case jp | jpV0 => exact ⟨_, rfl, writes_of_noRegs (s.writePc_keepsBut _)⟩
  case seImm | sneImm | seReg | sneReg | skp | sknp => exact ⟨_, rfl, writes_of_noRegs (s.skipIf_keepsBut _)⟩
  case ldI | addI | ldF => exact ⟨_, rfl, writes_of_noRegs (s.writeI_keepsBut _)⟩
  case ldDtVx => exact ⟨_, rfl, writes_of_noRegs (s.writeDt_keepsBut _)⟩
  case ldStVx => exact ⟨_, rfl, writes_of_noRegs (s.writeSt_keepsBut _)⟩
  case ldImm | addImm | ldReg | orReg | andReg | xorReg | ldVxDt =>
    exact ⟨_, rfl, s.writeV_keepsBut _ _, s.writeV_keepsRegsBut _ _⟩
  case addReg | sub | shr | subn | shl =>
    exact ⟨_, rfl, s.writeFlagged_keepsBut _ _ _, s.writeFlagged_keepsRegsBut _ _ _⟩
  case rnd => exact ⟨_, rfl, s.drawn_keepsBut.trans (State.writeV_keepsBut _ _ _), s.drawn.writeV_keepsRegsBut _ _⟩
  case drw =>
    exact ⟨_, rfl, (s.writeFb_keepsBut _).trans (State.writeV_keepsBut _ _ _), (s.writeFb _).writeV_keepsRegsBut _ _⟩
  case loadRegs x => exact ⟨_, rfl, State.loadIndexed_keepsBut _ s, s.loadIndexed_keepsRegsBut x⟩

/-- Everything an instruction can answer: a fault, the report of an unknown word, the wait for a key, or completion. -/
theorem exec_cases (i : Instr) (s : State) :
    (∃ f, exec i s = .fault f) ∨
    (∃ w, i = .unknown w ∧ exec i s = reportUnknown w s) ∨
    (Parks i s ∧ exec i s = park s.rollBackPc) ∨
    ((∀ w, i ≠ .unknown w) ∧ ¬Parks i s ∧ ∃ t, exec i s = complete t ∧ Writes i s t) := by
  by_cases hfault : ∃ f, exec i s = .fault f
  · exact .inl hfault
  by_cases hunknown : ∃ w, i = .unknown w
  · obtain ⟨w, rfl⟩ := hunknown
    exact .inr (.inl ⟨w, rfl, rfl⟩)
  by_cases hparks : Parks i s
  · obtain ⟨⟨x, rfl⟩, hkeys⟩ := id hparks
    exact .inr (.inr (.inl ⟨hparks, exec_ldVxK_of_firstKey_none (s.firstKey_eq_none_iff.2 hkeys) x⟩))
  · rw [not_exists] at hfault hunknown
    exact .inr (.inr (.inr ⟨hunknown, hparks, exec_completes hunknown hparks hfault⟩))

/-- An instruction that answers a next state leaves every register but the ones it writes. -/
theorem exec_keepsRegsBut {i : Instr} {s t : State} (h : exec i s = .next t) : KeepsRegsBut (writtenRegs i) s t := by
  rcases exec_cases i s with ⟨f, hexec⟩ | ⟨w, -, hexec⟩ | ⟨-, hexec⟩ | ⟨-, -, u, hexec, -, hregs⟩ <;>
    rw [hexec] at h <;> cases h
  · exact (s.writeOutcome_keepsBut _).keepsRegsBut (by decide) _
  · exact (s.rollBackPc.writeOutcome_keepsBut _).keepsRegsBut (by decide) _
  · exact hregs

/-- An instruction that answers a next state leaves every part but the ones it writes, pc (when it parks) and the outcome
port. -/
theorem exec_keepsBut {i : Instr} {s t : State} (h : exec i s = .next t) :
    KeepsBut (writtenParts i ++ [.pc, .outcome]) s t := by
  rcases exec_cases i s with ⟨f, hexec⟩ | ⟨w, -, hexec⟩ | ⟨-, hexec⟩ | ⟨-, -, u, hexec, hparts, -⟩ <;>
    rw [hexec] at h <;> cases h
  · exact (s.writeOutcome_keepsBut _).mono (by simp)
  · exact ((s.writePc_keepsBut _).trans (State.writeOutcome_keepsBut _ _)).mono (by simp)
  · exact (hparts.trans (u.writeOutcome_keepsBut _)).mono fun q hq => by
      simp only [List.mem_append] at hq ⊢
      tauto

/-- Settles O9: a step faults, or reports, parks or completes in a next state. -/
theorem stepNeverRefuses : Obligations.StepNeverRefuses := by
  intro s
  rcases exec_cases (fetchInstr s) s.advancePc with hfault | ⟨w, -, hexec⟩ | ⟨-, hexec⟩ | ⟨-, -, t, hexec, -⟩
  · exact .inr hfault
  all_goals exact .inl ⟨_, hexec⟩

/-- Settles O12: each way of ending latches its own outcome, and the three exclude each other. -/
theorem stepOutcomes : Obligations.StepOutcomes := by
  intro s t h
  rw [step] at h
  rcases exec_cases (fetchInstr s) s.advancePc with
    ⟨f, hexec⟩ | ⟨w, hi, hexec⟩ | ⟨hparks, hexec⟩ | ⟨hknown, hparks, u, hexec, -⟩ <;>
    rw [hexec] at h <;> cases h
  · simp [hi, eq_comm (a := s.pc)]
  · obtain ⟨⟨x, hi⟩, hkeys⟩ := hparks
    simpa [hi] using hkeys
  · simpa [hknown, Parks] using hparks

/-- Settles O48: VF changes only where it is among the registers that the instruction writes. -/
theorem flagRegisterWriters : Obligations.FlagRegisterWriters := by
  intro i s t h hchanged
  have hmem : (15 : Reg) ∈ writtenRegs i := by
    by_contra hnot
    exact hchanged (exec_keepsRegsBut h 15 hnot)
  cases i
  case addReg | sub | shr | subn | shl | drw => simp
  case ldImm | addImm | ldReg | orReg | andReg | xorReg | rnd | ldVxDt | ldVxK =>
    cases List.mem_singleton.1 hmem
    simp
  case loadRegs x =>
    obtain ⟨k, hk, h15⟩ := List.mem_map.1 hmem
    have hx : x = 15 := by
      rw [List.mem_range] at hk
      bv_omega
    simp [hx]
  all_goals cases hmem

/-- A part changes only where it is among the parts that the instruction writes; pc and the outcome port apart. -/
theorem mem_writtenParts_of_changed {i : Instr} {s t : State} {p : Part} (h : exec i s = .next t)
    (hchanged : ¬p.Same s t) (hport : p ∉ [.pc, .outcome]) : p ∈ writtenParts i := by
  by_contra hnot
  exact hchanged (exec_keepsBut h p (by simpa only [List.mem_append, not_or] using ⟨hnot, hport⟩))

/-- Settles O49: the rows that write each part, read off `writtenParts`. -/
theorem eachPartHasItsWriters : Obligations.EachPartHasItsWriters := by
  intro i s t h
  refine ⟨fun hp => ?_, fun hp => ?_, fun hp => ?_, fun hp => ?_, fun hp => ?_, fun hp => ?_, fun hp => ?_, fun hp => ?_,
    exec_keepsBut h .keys ?_⟩
  case refine_9 => cases i <;> simp [writtenParts]
  all_goals
    have hwrites := mem_writtenParts_of_changed h hp (by decide)
    cases i <;> simp [writtenParts] at hwrites ⊢

end Sys2Proof.Machine
end

section
/-! PROOFS. Step and Load in a session (spec 60_exceptions.md R305, R314; 70_reset_and_hazards.md R331, R355). -/

namespace Sys2Proof.Machine

theorem Run.step_of_next {r : Run} {t : State} (h : Machine.step r.core = .next t) :
    r.step = (.stepped (.reported t.outcome), r.afterStep (.reported t.outcome) t) := by
  simp only [Run.step, h]

theorem Run.step_of_fault {r : Run} {f : Fault} (h : Machine.step r.core = .fault f) :
    r.step = (.stepped (.faulted f), r.afterStep (.faulted f) r.core) := by
  simp only [Run.step, h]

/-- Every Step is one of `Run.afterStep`, for the core refuses none. -/
theorem Run.step_cases (r : Run) : ∃ o core, r.step = (.stepped o, r.afterStep o core) := by
  rcases stepNeverRefuses r.core with ⟨t, h⟩ | ⟨f, h⟩
  · exact ⟨_, _, Run.step_of_next h⟩
  · exact ⟨_, _, Run.step_of_fault h⟩

theorem Run.step_stepped (r : Run) : r.step.2.stepped = true := by
  obtain ⟨o, core, h⟩ := r.step_cases
  rw [h]
  rfl

theorem Run.step_core_of_fault {r : Run} {f : Fault} (h : Machine.step r.core = .fault f) : r.step.2.core = r.core := by
  rw [Run.step_of_fault h]
  rfl

theorem Run.mem_record_afterStep (r : Run) {o : StepOutcome} (h : o.recorded = true) (core : State) :
    o ∈ (r.afterStep o core).record := by
  simp [Run.afterStep, h]

theorem Run.record_subset_afterStep (r : Run) (o : StepOutcome) (core : State) :
    r.record ⊆ (r.afterStep o core).record := by
  unfold Run.afterStep
  split
  · exact List.subset_append_left _ _
  · exact List.Subset.refl _

theorem recorded_faulted (f : Fault) : (StepOutcome.faulted f).recorded = true := by
  cases f <;> rfl

/-- Settles O55: a fault is the answer, keeps the core and is recorded. -/
theorem faultLeavesCoreUnchanged : Obligations.FaultLeavesCoreUnchanged := by
  intro r f h
  rw [Run.step_of_fault h]
  exact ⟨rfl, rfl, r.mem_record_afterStep (recorded_faulted f) _⟩

/-! ## Admission of the operations -/

theorem Run.load_of_unstepped {r : Run} (h : r.stepped = false) (rom : List Byte) :
    r.load rom = (.loaded (r.core.load rom).1, { r with core := (r.core.load rom).2 }) := by
  simp [Run.load, h]

theorem Run.load_of_stepped {r : Run} (h : r.stepped = true) (rom : List Byte) :
    r.load rom = (.refused .loadAfterStep, r) := by
  simp [Run.load, h]

theorem Run.load_stepped (r : Run) (rom : List Byte) : (r.load rom).2.stepped = r.stepped := by
  cases h : r.stepped with
  | false => rw [Run.load_of_unstepped h, ← h]
  | true => rw [Run.load_of_stepped h, h]

/-- Settles O54: Load looks at `stepped`, which Step alone sets. -/
theorem loadOnlyBeforeFirstStep : Obligations.LoadOnlyBeforeFirstStep := by
  refine ⟨fun r rom h => Run.load_of_unstepped h rom, fun r op hop => ?_, Run.step_stepped,
    fun r rom h => Run.load_of_stepped h rom, fun _ => rfl, rfl, fun op => ?_⟩
  · cases op with
    | load rom => exact r.load_stepped rom
    | step => exact absurd rfl hop
    | reset | tick | setKeys => rfl
  · cases op <;> simp [Session.perform, Session.start]

end Sys2Proof.Machine
end

section
/-! PROOFS. The invariant: the memory stays canonical and the font intact (spec 20_memory.md R78, 70_reset_and_hazards.md
R353). -/

namespace Sys2Proof.Machine

/-- The invariant speaks of memory alone. -/
theorem State.Inv.of_mem_eq {s t : State} (hs : s.Inv) (hmem : t.mem = s.mem) : t.Inv := by
  unfold State.Inv FontIntact at *
  rwa [hmem]

/-- Canonical memory in which every font byte reads as it did keeps the invariant. -/
theorem State.Inv.of_font_kept {s t : State} (hs : s.Inv) (hwf : t.mem.wf = true)
    (hfont : ∀ a, inFont a = true → t.readMem a = s.readMem a) : t.Inv := by
  obtain ⟨-, hintact⟩ := hs
  rw [fontIntact_iff] at hintact
  exact ⟨hwf, (fontIntact_iff t).2 fun a ha => (hfont a ha).trans (hintact a ha)⟩

/-- An indexed store with no target in the font keeps the invariant (R207). -/
theorem State.Inv.writeIndexed {s : State} (hs : s.Inv) {bs : List Byte} (hlen : bs.length ≤ 4096)
    (hmiss : s.fontHit bs.length = none) : (s.writeIndexed 0 bs).Inv := by
  obtain ⟨hwf, -⟩ := id hs
  rw [State.fontHit_eq_none_iff] at hmiss
  refine hs.of_font_kept (State.writeIndexed_wf hwf 0 bs) fun a ha => ?_
  refine (State.writeIndexed_readMem s 0 bs (by omega) a).2 fun k hk htarget => ?_
  rw [htarget, Nat.zero_add, hmiss k hk] at ha
  cases ha

/-- Copying a ROM that fits keeps the invariant: it is copied above the font. -/
theorem State.Inv.writeRom {s : State} (hs : s.Inv) {rom : List Byte} (hfits : rom.length ≤ 3584) :
    (s.writeRom 0 rom).Inv := by
  obtain ⟨hwf, -⟩ := id hs
  refine hs.of_font_kept (State.writeRom_wf hwf 0 rom) fun a ha => ?_
  obtain ⟨-, hbelow⟩ := (inFont_iff a).1 ha
  exact s.writeRom_readMem_outside hfits (.inl (by omega))

theorem exec_keeps_inv {i : Instr} {s t : State} (hs : s.Inv) (h : exec i s = .next t) : t.Inv := by
  rcases exec_mem_cases h with hmem | ⟨bs, x, -, hlen, hmiss, rfl⟩
  · exact hs.of_mem_eq hmem
  · exact (hs.writeIndexed (by omega) hmiss).of_mem_eq rfl

/-- Settles O15: memory stays, or a store with no target in the font writes it. -/
theorem stepKeepsInvariant : Obligations.StepKeepsInvariant := fun _ _ hs h =>
  exec_keeps_inv (hs.of_mem_eq (State.advancePc_mem _)) h

/-- Settles O14: memory lists nothing, so it reads as the font table by definition. -/
theorem resetMeetsInvariant : Obligations.ResetMeetsInvariant := by
  refine ⟨State.reset_mem_wf, fun j hj => ?_⟩
  have hin : Config.fontBase ≤ Config.fontBase + j ∧ Config.fontBase + j < Config.fontBase + Config.fontSize := by omega
  simp only [State.reset, Memory.read, Memory.unlisted, if_pos hin, Nat.add_sub_cancel_left]

theorem State.load_keeps_inv {s : State} (hs : s.Inv) (rom : List Byte) : (s.load rom).2.Inv := by
  rcases Nat.lt_or_ge 3584 rom.length with hlong | hfits
  · rwa [State.load_of_tooLong hlong]
  · rw [State.load_of_fits hfits]
    exact hs.writeRom hfits

theorem Run.perform_keeps_inv {r : Run} (hr : r.core.Inv) (op : Op) : (r.perform op).2.core.Inv := by
  cases op with
  | reset => exact hr
  | load rom =>
    cases h : r.stepped with
    | false => simpa only [Run.perform, Run.load_of_unstepped h] using State.load_keeps_inv hr rom
    | true => simpa only [Run.perform, Run.load_of_stepped h] using hr
  | step =>
    rcases stepNeverRefuses r.core with ⟨t, h⟩ | ⟨f, h⟩
    · rw [Run.perform, Run.step_of_next h]
      exact stepKeepsInvariant _ _ hr h
    · rw [Run.perform, Run.step_of_fault h]
      exact hr
  | tick => exact hr.of_mem_eq (State.tick_mem _)
  | setKeys k => exact hr.of_mem_eq (State.setKeys_mem _ k)

/-- Settles O16: before its Reset a session holds no core; Reset starts from a core that meets the invariant. -/
theorem hostOperationsKeepInvariant : Obligations.HostOperationsKeepInvariant := by
  intro q op hq
  cases q with
  | unbuilt =>
    cases op with
    | reset => exact resetMeetsInvariant
    | _ => trivial
  | built r => exact Run.perform_keeps_inv hq op

end Sys2Proof.Machine
end

section
/-! PROOFS. The fetch and the step on particular instructions (spec 30_encoding.md section 4, 60_exceptions.md). -/

namespace Sys2Proof.Machine

/-- Settles O7: masking reduces modulo 4096, and the word is the two bytes side by side. -/
theorem fetchReadsTwoMaskedBytes : Obligations.FetchReadsTwoMaskedBytes := by
  intro s
  refine ⟨maskAddr_toNat s.pc, ?_, wordOfBytes_toNat _ _⟩
  rw [maskAddr_toNat, BitVec.toNat_add, Nat.mod_mod_of_dvd _ (by decide)]
  rfl

theorem State.advancePc_keepsBut (s : State) : KeepsBut [.pc] s s.advancePc := s.writePc_keepsBut (s.pc + 2)

/-- Settles O8: the decoder on the two bytes is the decoder on the fetched word. -/
theorem stepRunsDecodedInstruction : Obligations.StepRunsDecodedInstruction := by
  intro s i _ hdecode
  simp only [decode, Except.ok.injEq, Prod.mk.injEq, and_true] at hdecode
  have hfetch : fetchInstr s = i := hdecode
  exact ⟨by rw [step, hfetch], s.advancePc_pc, s.advancePc_keepsBut⟩

/-- RET apart, whose fault holds its own word, an instruction and its canonical form are run alike. -/
theorem exec_canonical {i : Instr} (h : ∀ ign, i ≠ .ret ign) (s : State) : exec i.canonical s = exec i s := by
  cases i
  case ret ign => exact absurd rfl (h ign)
  all_goals rfl

/-- Settles O6: RET by the two cases of the stack, every other instruction by `exec_canonical`. -/
theorem ignoredBitsHaveNoEffect : Obligations.IgnoredBitsHaveNoEffect := by
  intro i s
  by_cases hret : ∃ ign, i = .ret ign
  · obtain ⟨ign, rfl⟩ := hret
    rcases Nat.eq_zero_or_pos s.sp.val with hsp | hsp
    · simp [Instr.canonical, exec_ret_of_empty hsp]
    · simp [Instr.canonical, exec_ret_of_pos hsp]
  · rw [exec_canonical (not_exists.1 hret)]
    exact ⟨fun _ => Iff.rfl, Iff.rfl⟩

/-- Settles O11: of everything on which a step faults, the two stores give a font write. -/
theorem fontFaultCauses : Obligations.FontFaultCauses := by
  intro s w p a h
  have target_in_font : ∀ {n}, s.fontHit n = some a → 0x050 ≤ a.toNat ∧ a.toNat ≤ 0x09F := fun hhit => by
    obtain ⟨k, -, -, hin, -⟩ := (s.fontHit_eq_some_iff _ a).1 hhit
    obtain ⟨hlow, hhigh⟩ := (inFont_iff a).1 hin
    omega
  rcases (step_fault_iff s _).1 h with ⟨_, _, _, hf⟩ | ⟨_, _, _, hf⟩ | ⟨x, b, hi, hhit, hf⟩ | ⟨x, b, hi, hhit, hf⟩ <;>
    cases hf
  · exact ⟨⟨x, .inl hi⟩, rfl, rfl, target_in_font hhit⟩
  · exact ⟨⟨x, .inr hi⟩, rfl, rfl, target_in_font hhit⟩

/-- A step on an unknown word is its report in the advanced state, whose executing address is the fetch's. -/
theorem step_of_unknownWord {s : State} (h : unknownWord (fetchWord s) = true) :
    step s = .next ((s.writePc (s.pc + 2)).writeOutcome (.unknownOpcode (fetchWord s) s.pc)) := by
  have hfetch : fetchInstr s = .unknown (fetchWord s) := (decodeWord_eq_unknown_iff _).2 h
  rw [step, hfetch, exec, execUnknown, reportUnknown, State.advancePc_instrAddr]
  rfl

/-- Settles O47: the report touches the outcome port alone. -/
theorem unknownWordIsReportedNoOp : Obligations.UnknownWordIsReportedNoOp :=
  ⟨fun s _ => ⟨_, rfl, rfl, s.writeOutcome_keepsBut _⟩, fun _ h => step_of_unknownWord h⟩

/-- Settles O17: the zero word lies in the unknown space. -/
theorem emptyMachineReportsUnknown : Obligations.EmptyMachineReportsUnknown :=
  step_of_unknownWord (s := State.reset) (by decide)

/-- The step back undoes the fetch advance. -/
theorem State.rollBackPc_advancePc (s : State) : s.advancePc.rollBackPc = s := by
  have hpc : s.pc + 2 - 2 = s.pc := BitVec.add_sub_cancel s.pc 2
  simp only [State.rollBackPc, State.advancePc, State.writePc, hpc]

theorem step_of_parked {s : State} {x : Reg} (hfetch : fetchInstr s = .ldVxK x) (hkeys : ∀ k, s.key k = false) :
    step s = .next (s.writeOutcome .parked) := by
  have hnone : s.advancePc.firstKey = none := (State.firstKey_eq_none_iff _).2 hkeys
  rw [step, hfetch, exec_ldVxK_of_firstKey_none hnone, State.rollBackPc_advancePc, park]

/-- Settles O45: the outcome port is part of neither the fetch nor the keypad, so the step repeats. -/
theorem parkedStepChangesNothing : Obligations.ParkedStepChangesNothing := fun _ _ hfetch hkeys =>
  ⟨step_of_parked hfetch hkeys, step_of_parked hfetch hkeys⟩

end Sys2Proof.Machine
end

section
/-! PROOFS. Calls, the indexed jump and the skips on keys (spec 40_flow.md, 44_timers_keys.md). -/

namespace Sys2Proof.Machine

/-- Settles O18: the two cases of the stack; the underflow is a fault, which leaves the session's core. -/
theorem returnPopsTheStack : Obligations.ReturnPopsTheStack := by
  refine ⟨fun s ign h => ?_, fun s ign h => exec_ret_of_empty h ign, fun r ign hfetch h => ?_⟩
  · exact ⟨_, exec_ret_of_pos h ign, rfl, rfl, rfl,
      (((s.writeSp_keepsBut _).trans (State.writePc_keepsBut _ _)).trans (State.writeOutcome_keepsBut _ _)).mono
        (by simp)⟩
  · exact Run.step_core_of_fault ((step_fault_iff _ _).2 (.inr (.inl ⟨ign, hfetch, h, rfl⟩)))

/-- Settles O21: as O18, with the slot written under the pointer. -/
theorem callPushesReturnAddress : Obligations.CallPushesReturnAddress := by
  refine ⟨fun s nnn h => ?_, fun s nnn h => exec_call_of_full h nnn, fun r nnn hfetch h => ?_⟩
  · refine ⟨_, exec_call_of_lt h nnn, rfl, zextAddr_toNat nnn, ?_, fun j hj hne => ?_, rfl, ?_⟩
    · simp
    · simp [Vector.getElem_set_ne _ _ (Ne.symm hne)]
    · exact ((((s.writeStack_keepsBut _).trans (State.writeSp_keepsBut _ _)).trans (State.writePc_keepsBut _ _)).trans
        (State.writeOutcome_keepsBut _ _)).mono (by simp)
  · exact Run.step_core_of_fault ((step_fault_iff _ _).2 (.inl ⟨nnn, hfetch, h, rfl⟩))

/-- Settles O19: CALL completed, so SP was below 16 and is above 0 after it, and RET reads the slot that CALL wrote. -/
theorem callThenReturnRestoresPc : Obligations.CallThenReturnRestoresPc := by
  intro s t u nnn ign hcall hsp hstack
  have hlt : s.sp.val < 16 := by
    by_contra hfull
    rw [exec_call_of_full (by omega)] at hcall
    cases hcall
  rw [exec_call_of_lt hlt, complete_eq_next] at hcall
  subst hcall
  have hspu : u.sp.val = s.sp.val + 1 := congrArg Fin.val hsp
  refine ⟨_, exec_ret_of_pos (by omega) ign, ?_, ?_⟩
  · simp [hspu, hstack]
  · apply Fin.ext
    simp [hspu]

/-- Settles O24: the written pc is a sum that stays below 2^16. -/
theorem jumpWithOffsetAddsV0 : Obligations.JumpWithOffsetAddsV0 := by
  intro s nnn
  obtain ⟨t, hexec, hpc, hrest⟩ :=
    exec_completes_of_keepsBut_pc (i := .jpV0 nnn) rfl (s.writePc_keepsBut (zextAddr nnn + zextByte (s.readV 0)))
  refine ⟨t, hexec, ?_, hrest⟩
  rw [hpc, State.writePc_pc, BitVec.toNat_add, zextAddr_toNat, zextByte_toNat, Nat.mod_eq_of_lt (by omega)]

theorem keyIndex_toNat (b : Byte) : (keyIndex b).toNat = b.toNat % 16 := BitVec.toNat_setWidth 4 b

/-- Settles O43: both are skip instructions, on the key and on its negation. -/
theorem skipsOnKeys : Obligations.SkipsOnKeys := by
  intro s x k hk
  have hindex : keyIndex (s.readV x) = k := BitVec.eq_of_toNat_eq ((keyIndex_toNat _).trans hk.symm)
  constructor
  · simpa [hindex] using exec_skips (i := .skp x) (s := s) rfl
  · simpa only [hindex, Bool.not_eq_true', ← Bool.not_eq_true, ite_not] using exec_skips (i := .sknp x) (s := s) rfl

end Sys2Proof.Machine
end

section
/-! PROOFS. The ALU operations that write a flag, RND and LD F (spec 41_alu.md, 42_index_memory.md R203). -/

namespace Sys2Proof.Machine

/-- A completed instruction that writes a flag and then its destination: the flag stands unless the destination is VF. -/
theorem completes_of_writeFlagged {r : Result} {s : State} {x : Reg} {f : Bool} {b : Byte}
    (hr : r = complete (s.writeFlagged x f b)) :
    ∃ t, r = .next t ∧ t.readV x = b ∧ (x ≠ 15 → t.readV 15 = flagByte f) ∧ t.outcome = .advanced ∧
      KeepsRegsBut [x, 15] s t ∧ KeepsBut [.regs, .outcome] s t := by
  refine ⟨_, hr, by simp, fun hx => ?_, rfl, s.writeFlagged_keepsRegsBut x f b,
    (s.writeFlagged_keepsBut x f b).trans (State.writeOutcome_keepsBut _ _)⟩
  rw [State.writeOutcome_readV, State.readV_writeFlagged, if_neg hx.symm]
  exact if_pos rfl

theorem flagByte_decide (p : Prop) [Decidable p] : flagByte (decide p) = if p then 1 else 0 := by
  simp only [flagByte, decide_eq_true_eq]

/-- Settles O28: the machine sum is the sum modulo 256. -/
theorem addRegisterSetsCarry : Obligations.AddRegisterSetsCarry := by
  intro s x y
  obtain ⟨t, hexec, hx, hflag, hrest⟩ := completes_of_writeFlagged (r := exec (.addReg x y) s) rfl
  exact ⟨t, hexec, by rw [hx, BitVec.toNat_add], fun h => (hflag h).trans (flagByte_decide _), hrest⟩

theorem sub_toNat (a b : Byte) : (a - b).toNat = (a.toNat + 256 - b.toNat) % 256 := by
  bv_omega

/-- Settles O29: SUBN is SUB with the operands exchanged. -/
theorem subtractionsSetNoBorrow : Obligations.SubtractionsSetNoBorrow := by
  intro s x y
  constructor
  · obtain ⟨t, hexec, hx, hflag, hrest⟩ := completes_of_writeFlagged (r := exec (.sub x y) s) rfl
    exact ⟨t, hexec, by rw [hx, sub_toNat], fun h => (hflag h).trans (flagByte_decide _), hrest⟩
  · obtain ⟨t, hexec, hx, hflag, hrest⟩ := completes_of_writeFlagged (r := exec (.subn x y) s) rfl
    exact ⟨t, hexec, by rw [hx, sub_toNat], fun h => (hflag h).trans (flagByte_decide _), hrest⟩

theorem flagByte_toNat (f : Bool) : (flagByte f).toNat = f.toNat := by
  cases f <;> rfl

theorem flagByte_lowBit_toNat (b : Byte) : (flagByte (lowBit b)).toNat = b.toNat % 2 := by
  rw [flagByte_toNat, lowBit, BitVec.getLsbD, Nat.toNat_testBit, pow_zero, Nat.div_one]

theorem flagByte_highBit_toNat (b : Byte) : (flagByte (highBit b)).toNat = b.toNat / 128 := by
  rw [flagByte_toNat, highBit, BitVec.getLsbD, Nat.toNat_testBit]
  omega

/-- Settles O31: the two shifts of the chosen source. -/
theorem shiftModesChooseTheSource : Obligations.ShiftModesChooseTheSource := by
  intro s usesVy x y
  constructor
  · obtain ⟨t, hexec, hx, hflag, hrest⟩ := completes_of_writeFlagged (r := shiftRight usesVy x y s) rfl
    refine ⟨t, hexec, ?_, fun h => ?_, hrest⟩
    · rw [hx, BitVec.toNat_ushiftRight, Nat.shiftRight_eq_div_pow]
      rfl
    · rw [hflag h, flagByte_lowBit_toNat]
      rfl
  · obtain ⟨t, hexec, hx, hflag, hrest⟩ := completes_of_writeFlagged (r := shiftLeft usesVy x y s) rfl
    refine ⟨t, hexec, ?_, fun h => ?_, hrest⟩
    · rw [hx, BitVec.toNat_shiftLeft, Nat.shiftLeft_eq]
      rfl
    · rw [hflag h, flagByte_highBit_toNat]
      rfl

/-- Settles O30: SHR and SHL are the shared shifts in the normative mode. -/
theorem shiftsMoveVxByOne : Obligations.ShiftsMoveVxByOne := fun s x y => shiftModesChooseTheSource s false x y

/-- Settles O32: the byte drawn is masked before it is written. -/
theorem randomByteIsMasked : Obligations.RandomByteIsMasked := by
  intro s x kk
  have hx : ((s.drawn.writeV x (s.randByte &&& kk)).writeOutcome .advanced).readV x = s.randByte &&& kk := by simp
  refine ⟨_, rfl, hx, ?_, rfl, rfl, s.drawn.writeV_keepsRegsBut x _, ?_⟩
  · rw [hx, BitVec.and_assoc, BitVec.and_not_self]
    exact BitVec.and_zero
  · exact ((s.drawn_keepsBut.trans (State.writeV_keepsBut _ _ _)).trans (State.writeOutcome_keepsBut _ _)).mono (by simp)

/-- No glyph address exceeds 0x050 + 5 * 255. -/
theorem glyphAddr_toNat (b : Byte) : (glyphAddr b).toNat = 0x050 + 5 * b.toNat := by
  simp only [glyphAddr, BitVec.toNat_ofNat, Config.fontBase, Config.fontGlyph]
  omega

/-- Settles O34: a completed write of the glyph address to I. -/
theorem glyphAddressFromWholeByte : Obligations.GlyphAddressFromWholeByte := by
  intro s x
  obtain ⟨t, hexec, hi, hrest⟩ := exec_completes_of_writeI (i := .ldF x) (s := s) rfl
  exact ⟨t, hexec, by rw [hi, glyphAddr_toNat], hrest⟩

end Sys2Proof.Machine
end

section
/-! PROOFS. Stores to memory and loads from it (spec 42_index_memory.md, 20_memory.md R83). -/

namespace Sys2Proof.Machine

theorem exec_ldB_of_miss {s : State} (h : ∀ k, k < 3 → inFont (s.indexAddr k) = false) (x : Reg) :
    exec (.ldB x) s = complete (s.writeIndexed 0 (bcdDigits (s.readV x))) :=
  storeIndexed_of_miss ((s.fontHit_eq_none_iff 3).2 h) _

theorem exec_storeRegs_of_miss {s : State} {x : Reg} (h : ∀ k, k ≤ x.toNat → inFont (s.indexAddr k) = false) :
    exec (.storeRegs x) s = complete (s.writeIndexed 0 (s.regsUpTo x)) := by
  refine storeIndexed_of_miss ((s.fontHit_eq_none_iff _).2 fun k hk => h k ?_) _
  rw [State.regsUpTo_length] at hk
  omega

/-- A store of at most 4096 bytes that completes: every byte at its target, every other byte and part kept. -/
theorem exec_completes_of_writeIndexed {i : Instr} {s : State} {bs : List Byte}
    (hexec : exec i s = complete (s.writeIndexed 0 bs)) (hlen : bs.length ≤ 4096) :
    ∃ t, exec i s = .next t ∧ (∀ k (hk : k < bs.length), t.readMem (s.indexAddr k) = bs[k]) ∧
      (∀ a, (∀ k, k < bs.length → a ≠ s.indexAddr k) → t.readMem a = s.readMem a) ∧
      t.outcome = .advanced ∧ KeepsBut [.mem, .outcome] s t := by
  have hread := State.writeIndexed_readMem s 0 bs (by omega)
  simp only [Nat.zero_add] at hread
  exact ⟨_, hexec, fun k hk => (hread _).1 k hk rfl, fun a ha => (hread a).2 ha, rfl,
    (s.writeIndexed_keepsBut 0 bs).trans (State.writeOutcome_keepsBut _ _)⟩

theorem bcdDigits_length (b : Byte) : (bcdDigits b).length = 3 := rfl

/-- The three digits as numbers (R204). -/
theorem bcdDigits_toNat (b : Byte) (k : Nat) (hk : k < (bcdDigits b).length) : (bcdDigits b)[k].toNat =
    if k = 0 then b.toNat / 100 else if k = 1 then b.toNat / 10 % 10 else b.toNat % 10 := by
  have hk3 : k < 3 := hk
  interval_cases k <;> simp [bcdDigits]

theorem regsUpTo_getElem (s : State) (x : Reg) (k : Nat) (hk : k < (s.regsUpTo x).length) :
    (s.regsUpTo x)[k] = s.readV (BitVec.ofNat 4 k) := by
  simp [State.regsUpTo]

/-- Settles O35: a completed store of the three digits. -/
theorem bcdStoresThreeDigits : Obligations.BcdStoresThreeDigits := by
  intro s x hmiss
  obtain ⟨t, hexec, hstored, hkept, hrest⟩ := exec_completes_of_writeIndexed (exec_ldB_of_miss hmiss x)
    (by rw [bcdDigits_length]; decide)
  have hdigit : ∀ k (hk : k < 3), (t.readMem (s.indexAddr k)).toNat = _ := fun k hk =>
    (congrArg BitVec.toNat (hstored k hk)).trans (bcdDigits_toNat _ k hk)
  exact ⟨t, hexec, s.indexAddr_toNat, hdigit 0 (by decide), hdigit 1 (by decide), hdigit 2 (by decide), hkept, hrest⟩

/-- Settles O36: a completed store of V0 to Vx. -/
theorem storeRegistersWritesMemory : Obligations.StoreRegistersWritesMemory := by
  intro s x hmiss
  have hlen : ∀ k, k < (s.regsUpTo x).length ↔ k ≤ x.toNat := fun k => by
    rw [State.regsUpTo_length, Nat.lt_succ_iff]
  obtain ⟨t, hexec, hstored, hkept, hrest⟩ := exec_completes_of_writeIndexed (exec_storeRegs_of_miss hmiss)
    (by rw [State.regsUpTo_length]; omega)
  refine ⟨t, hexec, s.indexAddr_toNat, fun z hz => ?_, fun a ha => hkept a fun k hk => ha k ((hlen k).1 hk), hrest⟩
  rw [hstored _ ((hlen _).2 hz), regsUpTo_getElem, BitVec.ofNat_toNat, BitVec.setWidth_eq]

/-- Settles O37: the font check answers the lowest offset; any offset in the font makes it answer one. -/
theorem storeIntoFontFaults : Obligations.StoreIntoFontFaults := by
  refine ⟨fun s x k hin hlow => ?_, fun r x k hin => ?_, fun a => ?_⟩
  · have hhit : ∀ n, k < n → s.fontHit n = some (s.indexAddr k) := fun n hk =>
      (s.fontHit_eq_some_iff n _).2 ⟨k, hk, rfl, hin, hlow⟩
    refine ⟨fun hk => storeIndexed_of_hit (hhit 3 hk) _, fun hk => storeIndexed_of_hit (hhit _ ?_) _⟩
    rw [State.regsUpTo_length]
    omega
  · have hhit : ∀ n, k < n → ∃ a, r.core.fontHit n = some a := fun n hk => by
      rw [← Option.ne_none_iff_exists', Ne, State.fontHit_eq_none_iff]
      exact fun hmiss => by simp [hmiss k hk] at hin
    constructor
    · intro hfetch hk
      obtain ⟨a, ha⟩ := hhit 3 hk
      exact Run.step_core_of_fault ((step_fault_iff _ _).2 (.inr (.inr (.inl ⟨x, a, hfetch, ha, rfl⟩))))
    · intro hfetch hk
      obtain ⟨a, ha⟩ := hhit (x.toNat + 1) (by omega)
      exact Run.step_core_of_fault ((step_fault_iff _ _).2 (.inr (.inr (.inr ⟨x, a, hfetch, ha, rfl⟩))))
  · rw [inFont_iff]
    omega

/-- Settles O38: the registers loaded are those below x + 1, each from its own masked address. -/
theorem loadRegistersReadsMemory : Obligations.LoadRegistersReadsMemory := by
  intro s x
  refine ⟨_, rfl, s.indexAddr_toNat, fun z hz => ?_, fun z hz => ?_, rfl,
    (State.loadIndexed_keepsBut _ s).trans (State.writeOutcome_keepsBut _ _)⟩
  · rw [State.writeOutcome_readV, State.loadIndexed_readV _ (by omega), if_pos (by omega), State.readIndexed]
  · rw [State.writeOutcome_readV, State.loadIndexed_readV _ (by omega), if_neg (by omega)]

/-- Settles O39: both stores are indexed stores of at most 16 bytes, which the next fetch sees. -/
theorem storeIsSeenByNextFetch : Obligations.StoreIsSeenByNextFetch := by
  intro s x
  constructor
  · intro hmiss
    refine ⟨_, exec_storeRegs_of_miss hmiss, (s.writeIndexed_keepsBut 0 _) .pc (by decide), ?_⟩
    rw [← s.regsUpTo_length x]
    exact fetchSees_writeIndexed s _ _ _ (by rw [State.regsUpTo_length]; omega)
      fun k hk => by rw [regsUpTo_getElem]
  · intro hmiss
    exact ⟨_, exec_ldB_of_miss hmiss x, (s.writeIndexed_keepsBut 0 _) .pc (by decide),
      fetchSees_writeIndexed s _ _ _ (by rw [bcdDigits_length]; decide) (bcdDigits_toNat _)⟩

end Sys2Proof.Machine
end

section
/-! PROOFS. Drawing a sprite (spec 43_display.md R232 to R235). -/

namespace Sys2Proof.Machine

/-- Some set sprite bit of the n rows at I lands on this pixel of the screen. -/
def SpriteCovers (s : State) (x0 y0 n px py : Nat) : Prop :=
  ∃ r c, SpriteDraws s x0 y0 n r c ∧ px = x0 + c ∧ py = y0 + r

theorem rowDraws_iff (b : Byte) (x0 px : Nat) :
    rowDraws b x0 8 px = true ↔ ∃ c, c < 8 ∧ b.getLsbD (7 - c) = true ∧ x0 + c < 64 ∧ px = x0 + c := by
  simp only [rowDraws, spriteBit, Bool.and_eq_true, decide_eq_true_eq]
  constructor
  · rintro ⟨⟨⟨hscreen, hleft⟩, hright⟩, hbit⟩
    exact ⟨px - x0, by omega, hbit, by omega, by omega⟩
  · rintro ⟨c, hc, hbit, hscreen, rfl⟩
    exact ⟨⟨⟨hscreen, by omega⟩, by omega⟩, by rwa [Nat.add_sub_cancel_left]⟩

/-- The sprite covers a pixel when the row of the sprite on the pixel's own row draws it. -/
theorem spriteCovers_iff (s : State) (x0 y0 n px py : Nat) (hpy : py < 32) : SpriteCovers s x0 y0 n px py ↔
    y0 ≤ py ∧ py < y0 + n ∧ rowDraws (s.readIndexed (py - y0)) x0 8 px = true := by
  rw [rowDraws_iff]
  constructor
  · rintro ⟨r, c, ⟨hr, hc, hbit, hx, hy⟩, rfl, rfl⟩
    refine ⟨by omega, by omega, c, hc, ?_, hx, rfl⟩
    rwa [Nat.add_sub_cancel_left]
  · rintro ⟨htop, hbottom, c, hc, hbit, hx, rfl⟩
    exact ⟨py - y0, c, ⟨by omega, hc, hbit, hx, by omega⟩, rfl, by omega⟩

theorem bool_xor_iff (a b : Bool) : (a ^^ b) = true ↔ Xor (a = true) (b = true) := by
  cases a <;> cases b <;> simp [Xor]

/-- Drawing toggles the pixels that the sprite covers. -/
theorem pixelAt_drawRows_iff (s : State) (x0 y0 n px py : Nat) (hpy : py < 32) :
    pixelAt (drawRows s x0 y0 n).1 px py = true ↔ Xor (pixelAt s.fb px py = true) (SpriteCovers s x0 y0 n px py) := by
  rw [drawRows_pixel s x0 y0 n px py hpy, bool_xor_iff, spriteCovers_iff s x0 y0 n px py hpy]
  simp only [Bool.and_eq_true, decide_eq_true_eq, and_assoc]

/-- The collision flag: some drawn bit met a pixel that was on. -/
theorem drawRows_collision_iff (s : State) (x0 y0 n : Nat) : (drawRows s x0 y0 n).2 = true ↔
    ∃ r c, SpriteDraws s x0 y0 n r c ∧ pixelAt s.fb (x0 + c) (y0 + r) = true := by
  simp only [drawRows_collision, rowDraws_iff]
  constructor
  · rintro ⟨r, px, hr, hy, ⟨c, hc, hbit, hx, rfl⟩, hon⟩
    exact ⟨r, c, ⟨hr, hc, hbit, hx, hy⟩, hon⟩
  · rintro ⟨r, c, ⟨hr, hc, hbit, hx, hy⟩, hon⟩
    exact ⟨r, x0 + c, hr, hy, ⟨c, hc, hbit, hx, rfl⟩, hon⟩

/-- Settles O41: the loops in closed form, then VF from the collision. -/
theorem drawTogglesSpritePixels : Obligations.DrawTogglesSpritePixels := by
  intro s x y n
  have hcollision := drawRows_collision_iff s (anchorX (s.readV x)) (anchorY (s.readV y)) n.toNat
  refine ⟨_, rfl, fun px py _ hpy => pixelAt_drawRows_iff s _ _ _ px py hpy, fun hhit => ?_, fun hmiss => ?_, rfl,
    (s.writeFb _).writeV_keepsRegsBut regF _,
    (((s.writeFb_keepsBut _).trans (State.writeV_keepsBut _ _ _)).trans (State.writeOutcome_keepsBut _ _)).mono
      (by simp)⟩
  · rw [State.writeOutcome_readV, State.readV_writeV, hcollision.2 hhit]
    rfl
  · have hnone : (drawRows s (anchorX (s.readV x)) (anchorY (s.readV y)) n.toNat).2 = false := by
      rw [← Bool.not_eq_true, hcollision]
      rintro ⟨r, c, hdraws, hon⟩
      exact Bool.noConfusion (hon.symm.trans (hmiss r c hdraws))
    rw [State.writeOutcome_readV, State.readV_writeV, hnone]
    rfl

theorem xor_iff_not_of_right {p q : Prop} (hq : q) : Xor p q ↔ ¬p := by
  simp [xor_iff_iff_not, hq]

theorem xor_xor_right (p q : Prop) : Xor (Xor p q) q ↔ p := by
  unfold Xor
  tauto

/-- What a sprite draws is read from I and memory. -/
theorem spriteDraws_congr {s t : State} (hi : Part.i.Same s t) (hmem : Part.mem.Same s t) :
    SpriteDraws t = SpriteDraws s := by
  funext x0 y0 n r c
  simp only [SpriteDraws, hmem _, State.indexAddr, show t.i = s.i from hi]

/-- Settles O42: DRW changes neither I nor memory, so the second draw toggles the pixels of the first; a bit drawn on the
screen meets in the second draw the opposite of what it met in the first. -/
theorem drawingTwiceRestoresPixels : Obligations.DrawingTwiceRestoresPixels := by
  intro s t u x y x' y' n hfirst hx hy hsecond
  obtain ⟨_, hexec, hpixelT, -, -, -, -, hkeeps⟩ := drawTogglesSpritePixels s x y n
  cases hfirst.symm.trans hexec
  obtain ⟨_, hexec, hpixelU, hhit, hmiss, -, -, -⟩ := drawTogglesSpritePixels t x' y' n
  cases hsecond.symm.trans hexec
  rw [hx, hy, spriteDraws_congr (hkeeps .i (by decide)) (hkeeps .mem (by decide))] at hpixelU hhit hmiss
  have hopposite : ∀ {r c}, SpriteDraws s ((s.readV x).toNat % 64) ((s.readV y).toNat % 32) n.toNat r c →
      pixelAt t.fb ((s.readV x).toNat % 64 + c) ((s.readV y).toNat % 32 + r) =
        !pixelAt s.fb ((s.readV x).toNat % 64 + c) ((s.readV y).toNat % 32 + r) := by
    intro r c hdraws
    obtain ⟨-, -, -, hscreenX, hscreenY⟩ := id hdraws
    have hcovered := (hpixelT _ _ hscreenX hscreenY).trans (xor_iff_not_of_right ⟨r, c, hdraws, rfl, rfl⟩)
    rw [Bool.eq_iff_iff, hcovered, Bool.not_eq_true, Bool.not_eq_true']
  refine ⟨fun px py hpx hpy => ?_, fun ⟨r, c, hdraws, hoff⟩ => hhit ⟨r, c, hdraws, ?_⟩,
    fun hon => hmiss fun r c hdraws => ?_⟩
  · rw [Bool.eq_iff_iff, hpixelU px py hpx hpy, hpixelT px py hpx hpy, xor_xor_right]
  · rw [hopposite hdraws, hoff, Bool.not_false]
  · rw [hopposite hdraws, hon r c hdraws, Bool.not_true]

end Sys2Proof.Machine
end

section
/-! PROOFS. No step reads the sound timer (spec 10_state.md R40, R51). -/

namespace Sys2Proof.Machine

/-! Each operation that reads the state commutes with a write to ST. -/

theorem State.skipIf_writeSt (s : State) (b : Byte) (c : Bool) : (s.writeSt b).skipIf c = (s.skipIf c).writeSt b := by
  cases c <;> rfl

theorem State.writeIndexed_writeSt (s : State) (b : Byte) (k : Nat) (bs : List Byte) :
    (s.writeSt b).writeIndexed k bs = (s.writeIndexed k bs).writeSt b := by
  induction bs generalizing s k with
  | nil => rfl
  | cons c bs ih => exact ih (s.writeMem (s.indexAddr k) c) (k + 1)

theorem State.loadIndexed_writeSt (s : State) (b : Byte) (n : Nat) :
    State.loadIndexed n (s.writeSt b) = (State.loadIndexed n s).writeSt b := by
  induction n with
  | zero => rfl
  | succ n ih =>
    simp only [State.loadIndexed, ih]
    rfl

theorem drawRows_writeSt (s : State) (b : Byte) (x0 y0 n : Nat) :
    drawRows (s.writeSt b) x0 y0 n = drawRows s x0 y0 n := by
  induction n with
  | zero => rfl
  | succ n ih => simp only [drawRows, ih, State.writeSt_readIndexed]

/-- Two instructions that complete alike but for ST. -/
theorem next_writeSt_of_complete {r r' : Result} {u t : State} {b : Byte} (h : r = .next t) (hr : r = complete u)
    (hr' : r' = complete (u.writeSt b)) : ∃ c, r' = .next (t.writeSt c) := by
  rw [hr] at h
  cases h
  exact ⟨b, hr'⟩

/-- With another ST an instruction answers the same next state but for ST, which only LD ST sets. -/
theorem exec_next_writeSt {i : Instr} {s t : State} (h : exec i s = .next t) (b : Byte) :
    ∃ c, exec i (s.writeSt b) = .next (t.writeSt c) := by
  cases i
  case ldStVx x =>
    cases h
    exact ⟨s.readV x, rfl⟩
  case unknown w =>
    cases h
    exact ⟨b, rfl⟩
  case ldVxK x =>
    cases hkey : s.firstKey with
    | none =>
      cases h.symm.trans (exec_ldVxK_of_firstKey_none hkey x)
      exact ⟨b, exec_ldVxK_of_firstKey_none (s := s.writeSt b) hkey x⟩
    | some k =>
      exact next_writeSt_of_complete h (exec_ldVxK_of_firstKey_some hkey x)
        (exec_ldVxK_of_firstKey_some (s := s.writeSt b) hkey x)
  case call nnn =>
    rcases Nat.lt_or_ge s.sp.val 16 with hlt | hfull
    · exact next_writeSt_of_complete h (exec_call_of_lt hlt nnn) (exec_call_of_lt (s := s.writeSt b) hlt nnn)
    · cases h.symm.trans (exec_call_of_full (by omega) nnn)
  case ret ign =>
    rcases Nat.eq_zero_or_pos s.sp.val with hempty | hpos
    · cases h.symm.trans (exec_ret_of_empty hempty ign)
    · exact next_writeSt_of_complete h (exec_ret_of_pos hpos ign) (exec_ret_of_pos (s := s.writeSt b) hpos ign)
  case ldB | storeRegs =>
    rcases storeIndexed_cases _ _ s with ⟨a, -, hexec⟩ | ⟨hmiss, hexec⟩
    · cases h.symm.trans hexec
    · exact next_writeSt_of_complete h hexec
        ((storeIndexed_of_miss (s := s.writeSt b) hmiss _).trans (congrArg complete (s.writeIndexed_writeSt b 0 _)))
  case loadRegs x => exact next_writeSt_of_complete h rfl (congrArg complete (s.loadIndexed_writeSt b _))
  case drw x y n =>
    refine next_writeSt_of_complete (b := b) h rfl ?_
    simp only [exec, execDrw, drawRows_writeSt]
    rfl
  case seImm | sneImm | seReg | sneReg | skp | sknp =>
    exact next_writeSt_of_complete h rfl (congrArg complete (s.skipIf_writeSt b _))
  all_goals exact next_writeSt_of_complete h rfl rfl

/-- Settles O50: ST takes no part in the fetch, nor in what makes a step fault. -/
theorem soundTimerIsNeverRead : Obligations.SoundTimerIsNeverRead := fun s b =>
  ⟨fun _ h => exec_next_writeSt h b, fun f h => (step_fault_iff (s.writeSt b) f).2 ((step_fault_iff s f).1 h)⟩

end Sys2Proof.Machine
end

section
/-! PROOFS. Reset, the host's operations and the outputs (spec 60_exceptions.md, 70_reset_and_hazards.md). -/

namespace Sys2Proof.Machine

theorem State.reset_readMem (a : Addr) : State.reset.readMem a =
    if 0x050 ≤ a.toNat ∧ a.toNat ≤ 0x09F then Config.fontBytes.getD (a.toNat - 0x050) 0 else 0 := by
  have hregion : (0x050 ≤ a.toNat ∧ a.toNat < 0x050 + 80) ↔ (0x050 ≤ a.toNat ∧ a.toNat ≤ 0x09F) := by omega
  exact if_congr hregion rfl rfl

/-- Settles O13: every array is filled with one value, and memory reads as its reset contents. -/
theorem resetState : Obligations.ResetState :=
  ⟨fun _ => Vector.getElem_replicate _, rfl, rfl, rfl, rfl, rfl, rfl, fun _ _ => Vector.getElem_replicate _,
    fun _ => Vector.getElem_replicate _, pixelAt_replicate_zero, State.reset_readMem⟩

theorem State.setKeys_keepsBut (s : State) (k : Vector Bool 16) : KeepsBut [.keys] s (s.setKeys k) := by
  intro p hp
  cases p with
  | keys => simp at hp
  | _ => simp [Part.Same]

/-- Settles O52: a key is read off the array that was set. -/
theorem setKeysReplacesKeypad : Obligations.SetKeysReplacesKeypad := fun s k => ⟨fun _ => rfl, s.setKeys_keepsBut k⟩

/-! ## The record and a faulted core under every operation -/

/-- What every operation keeps, any list of operations keeps. -/
theorem Run.performAll_induction {P : Run → Prop} (hstep : ∀ r op, P r → P (r.perform op).2) {r : Run} (hr : P r)
    (ops : List Op) : P (r.performAll ops) := by
  induction ops generalizing r with
  | nil => exact hr
  | cons op ops ih => exact ih (hstep r op hr)

theorem Run.record_subset_perform (r : Run) (op : Op) : r.record ⊆ (r.perform op).2.record := by
  cases op with
  | load rom =>
    cases h : r.stepped with
    | false => simp [Run.perform, Run.load_of_unstepped h]
    | true => simp [Run.perform, Run.load_of_stepped h]
  | step =>
    obtain ⟨o, core, h⟩ := r.step_cases
    rw [Run.perform, h]
    exact r.record_subset_afterStep o core
  | reset | tick | setKeys => exact List.Subset.refl _

/-- Settles O56: no operation takes an outcome off the record. -/
theorem recordIsNeverCleared : Obligations.RecordIsNeverCleared := by
  constructor
  · intro r ops o ho
    exact Run.performAll_induction (P := fun q => o ∈ q.record) (fun q op hq => q.record_subset_perform op hq) ho ops
  · intro r h
    rw [Run.step_of_next (step_of_unknownWord h)]
    exact r.mem_record_afterStep rfl _

/-- A session stuck at a fault: its next Step faults, and no Load can replace the word that it fetches. -/
def Run.StuckAt (f : Fault) (r : Run) : Prop := Machine.step r.core = .fault f ∧ r.stepped = true

/-- A fault depends on the fetch, SP and I, and not on the timers or the keypad. -/
theorem step_fault_congr {s t : State} {f : Fault} (hpc : t.pc = s.pc) (hi : t.i = s.i) (hsp : t.sp = s.sp)
    (hmem : t.mem = s.mem) (h : step s = .fault f) : step t = .fault f := by
  have hword : fetchWord t = fetchWord s := by simp only [fetchWord, State.readMem, hpc, hmem]
  have hinstr : fetchInstr t = fetchInstr s := congrArg decodeWord hword
  have haddr : t.indexAddr = s.indexAddr := funext fun k => by simp only [State.indexAddr, hi]
  have hfont : t.fontHit = s.fontHit := funext fun n => by simp only [State.fontHit, haddr]
  rw [step_fault_iff] at h ⊢
  rwa [hword, hinstr, hfont, hpc, hsp]

theorem Run.StuckAt.perform {f : Fault} {r : Run} (h : r.StuckAt f) (op : Op) : (r.perform op).2.StuckAt f := by
  obtain ⟨hfault, hstepped⟩ := h
  cases op with
  | reset => exact ⟨hfault, hstepped⟩
  | load rom =>
    rw [Run.perform, Run.load_of_stepped hstepped]
    exact ⟨hfault, hstepped⟩
  | step =>
    rw [Run.perform, Run.step_of_fault hfault]
    exact ⟨hfault, rfl⟩
  | tick | setKeys => exact ⟨step_fault_congr (s := r.core) rfl rfl rfl rfl hfault, hstepped⟩

/-- Settles O57: the faulting Step leaves the session stuck, and every operation leaves it stuck. -/
theorem faultRepeatsForEver : Obligations.FaultRepeatsForEver := by
  intro r f ops h
  have hstuck : r.step.2.StuckAt f := by
    rw [Run.step_of_fault h]
    exact ⟨h, rfl⟩
  obtain ⟨hfault, -⟩ := Run.performAll_induction (P := Run.StuckAt f) (fun _ op hq => hq.perform op) hstuck ops
  exact hfault

/-! ## The outputs -/

theorem State.fbFlat_getElem? (s : State) {x y : Nat} (hx : x < 64) (hy : y < 32) :
    s.fbFlat[y * 64 + x]? = some (pixelAt s.fb x y) := by
  have hindex : y * 64 + x < Config.fbW * Config.fbH := by
    simp only [Config.fbW, Config.fbH]
    omega
  have hcolumn : (y * 64 + x) % Config.fbW = x := by
    simp only [Config.fbW]
    omega
  have hrow : (y * 64 + x) / Config.fbW = y := by
    simp only [Config.fbW]
    omega
  simp only [State.fbFlat, List.getElem?_map, List.getElem?_range hindex, Option.map_some, hcolumn, hrow]

/-- Settles O58: the flat index is divided into row and column again; presenting maps each element. -/
theorem outputsShowSoundAndPixels : Obligations.OutputsShowSoundAndPixels := by
  intro s
  have hlen : s.fbFlat.length = 2048 := by
    rw [State.fbFlat, List.length_map, List.length_range]
    rfl
  refine ⟨s.soundActive_iff, hlen, by rw [State.fbOut, List.length_map, hlen], fun x y hx hy => ?_⟩
  exact ⟨s.fbFlat_getElem? hx hy, by rw [State.fbOut, List.getElem?_map, s.fbFlat_getElem? hx hy]; rfl⟩

end Sys2Proof.Machine
end
